-- ==== Sys2Proof/Word.lean ====
section
/-! DEFINITION. The widths of the two units' registers and words, as 00_scope.md R5 and 10_state.md R17, R18, R23 give
them. Bit 0 is the least significant bit (R6). -/

namespace Sys2Proof

/-- One bit: `MU.Qm1`, a sign bit, the `op` field. -/
abbrev Bit := BitVec 1

/-- An operand and every 4-bit register (`W = 4`, R5). -/
abbrev Nibble := BitVec 4

/-- DU's accumulator and divisor register (`WA_DU = 5`, R5). -/
abbrev Acc := BitVec 5

/-- The Booth product `A ‖ Q` (`W_P = 8`, R5). -/
abbrev Product := BitVec 8

/-- The command word `CMD9` (30_encoding.md R51). -/
abbrev Cmd := BitVec 9

/-- The control pair `Q[0] ‖ Qm1` (41_booth.md R83). -/
abbrev Pair := BitVec 2

/-- The iteration counter `k`: "3 bits hold it" (10_state.md R23). -/
abbrev Counter := BitVec 3

end Sys2Proof
end

