-- ==== Sys2Proof/Syntax.lean ====
section
/-! DEFINITION. What the opcode table names: the units, their sequencer states, the code words of the table's formats and
the 15 rows of spec/opcode_table.json as the one inductive `Instr`. -/

namespace Sys2Proof

/-- The two units (00_scope.md R2). -/
inductive UnitName
  | mu
  | du
  deriving DecidableEq, Repr

/-- MU's sequencer states (10_state.md R21). Their binary encoding is not specified (R21, I9). -/
inductive MuSt
  | idle
  | op
  | shift
  | final
  | done
  deriving DecidableEq, Repr

/-- DU's sequencer states (10_state.md R22). Their binary encoding is not specified (R22, I9). -/
inductive DuSt
  | idle
  | shift
  | adjust
  | setq0
  | restore
  | final
  | done
  | error
  deriving DecidableEq, Repr

/-- One code word: what selects an instruction, in the format the opcode table gives its row. -/
inductive CodeWord
  /-- `CMD9`: the host's command word (30_encoding.md R51). -/
  | cmd9 (w : Cmd)
  /-- `MU_PAIR`: MU in `OP` with control pair `c` (R58). -/
  | muPair (c : Pair)
  /-- `MU_SEQ`: MU in a state that alone selects the step. -/
  | muSeq (st : MuSt)
  /-- `DU_SIGN` in `ADJUST`: the sign bit of the shifted `A` (R59). -/
  | duAdjust (sign : Bit)
  /-- `DU_SIGN` of the final correction: the sign bit after the fourth set-Q0 step (R61). -/
  | duCorrect (sign : Bit)
  /-- `DU_SEQ`: DU in a state that alone selects the step. -/
  | duSeq (st : DuSt)
  deriving DecidableEq, Repr

/-- One constructor per row of the opcode table: the host's commands, then the internal micro-steps. -/
inductive Instr
  /-- `MUL`, `0aaaabbbb`: multiplicand `x`, multiplier `y` (R82). -/
  | mul (x y : Nibble)
  /-- `DIV`, `1aaaabbbb` with `b ≠ 0000`: dividend `x`, divisor `d` (R97). -/
  | div (x d : Nibble)
  /-- `DIV`, `1aaaa0000`: dividend `x`, the divide-by-zero row (R98). -/
  | divZero (x : Nibble)
  /-- `MU_SUB`, pair `10` (R84). -/
  | muSub
  /-- `MU_ADD`, pair `01` (R85). -/
  | muAdd
  /-- `MU_NOP`, pair `00` (R86). -/
  | muNop00
  /-- `MU_NOP`, pair `11` (R86). -/
  | muNop11
  /-- `MU_ASR`, state `SHIFT` (R87). -/
  | muAsr
  /-- `MU_FINAL`, state `FINAL` (R88). -/
  | muFinal
  /-- `DU_SHL`, state `SHIFT` (R100). -/
  | duShl
  /-- `DU_SUB`, state `ADJUST`, sign 0 (R101). -/
  | duSub
  /-- `DU_ADD`, state `ADJUST`, sign 1 (R102). -/
  | duAdd
  /-- `DU_SETQ0`, state `SETQ0` (R104). -/
  | duSetq0
  /-- `DU_RESTORE`, the correction select answered 1 (R106). -/
  | duRestore
  /-- `DU_FINAL`, state `FINAL` (R107). -/
  | duFinal
  deriving DecidableEq, Repr

/-- The unit an instruction acts on (R52, R89, R110). -/
def Instr.unit : Instr → UnitName
  | .mul _ _ => .mu
  | .div _ _ => .du
  | .divZero _ => .du
  | .muSub => .mu
  | .muAdd => .mu
  | .muNop00 => .mu
  | .muNop11 => .mu
  | .muAsr => .mu
  | .muFinal => .mu
  | .duShl => .du
  | .duSub => .du
  | .duAdd => .du
  | .duSetq0 => .du
  | .duRestore => .du
  | .duFinal => .du

/-- Whether an instruction is a host command (R50) rather than an internal micro-step. -/
def Instr.isCommand : Instr → Bool
  | .mul _ _ => true
  | .div _ _ => true
  | .divZero _ => true
  | .muSub => false
  | .muAdd => false
  | .muNop00 => false
  | .muNop11 => false
  | .muAsr => false
  | .muFinal => false
  | .duShl => false
  | .duSub => false
  | .duAdd => false
  | .duSetq0 => false
  | .duRestore => false
  | .duFinal => false

end Sys2Proof
end

