-- ==== Sys2Proof/Machine/Record.lean ====
section
/-! DEFINITION. The step records of 10_state.md section 6: kinds, fields and the extra fields of the final records. Plain data. -/

namespace Sys2Proof.Machine

/-- MU record kinds (R36). -/
inductive MuKind
  | init
  | sub
  | add
  | nop
  | asr
  | final
  deriving DecidableEq, Repr

/-- DU record kinds (R37). -/
inductive DuKind
  | error
  | init
  | shl
  | sub
  | add
  | setq0
  | restore
  | final
  deriving DecidableEq, Repr

/-- The extra fields of `MU_FINAL` (R38). -/
structure MuFinal where
  /-- `P = MU.A ‖ MU.Q` -/
  p    : Product
  /-- `P_dec = sval_8(P)` -/
  pDec : Int
  /-- `M_dec = sval_4(MU.M)` -/
  mDec : Int
  /-- `Y_dec = sval_4(MU.Y)` -/
  yDec : Int
  deriving DecidableEq, Repr

/-- One MU record (R35). Its `note` is the OPEN parameter of D13, `MuRecord.note`. -/
structure MuRecord where
  idx  : Nat
  kind : MuKind
  a    : Nibble
  q    : Nibble
  qm1  : Bit
  fin  : Option MuFinal
  deriving DecidableEq, Repr

/-- The extra fields of `DU_FINAL` (R38). -/
structure DuFinal where
  /-- `X_dec = sval_4(DU.X)` -/
  xDec : Int
  /-- `M_dec = sval_5(DU.M)` -/
  mDec : Int
  /-- `Q_dec = sval_4(DU.Q)` -/
  qDec : Int
  /-- `R_dec = sval_5(DU.A)` -/
  rDec : Int
  deriving DecidableEq, Repr

/-- One DU record (R35). `msg` is the message of the `DU_ERROR` record (R98, R119), absent in every other record. Its `note`
is the OPEN parameter of D13, `DuRecord.note`. -/
structure DuRecord where
  idx  : Nat
  kind : DuKind
  a    : Acc
  q    : Nibble
  msg  : Option String
  fin  : Option DuFinal
  deriving DecidableEq, Repr

/-- The four kinds whose label text the source does not give (D12). -/
inductive OpenLabel
  | muInit
  | muFinal
  | duInit
  | duFinal
  deriving DecidableEq, Repr

end Sys2Proof.Machine
end

