-- ==== Sys2Proof/Config.lean ====
section
/-! DEFINITION. The fixed parameters of 00_scope.md R5 that a rule computes with, and the free values: what the spec leaves
open (92_eei_decisions.md D12, D13; 93_implementation_defined.md I4, I5, I11). A free value has no body. -/

namespace Sys2Proof.Config

/-- `ITER`: iterations per run of each unit (R5). -/
def iterations : Counter := 4#3

/-- `NREC_MU`: records of a Booth run (R5). -/
def recordsMu : Nat := 10

/-- `NREC_DU` without the restore step (R5); one more with it. -/
def recordsDu : Nat := 14

/-- `NREC_DU_ERR`: records of a division run with divisor 0000 (R5). -/
def recordsDuError : Nat := 1

/-- The exception code of `DivideByZero` (60_exceptions.md R119). -/
def divideByZeroCode : Nat := 1

/-- The message of the `DU_ERROR` record (R98, R119). -/
def divideByZeroMessage : String := "Division by zero is undefined"

/-- FREE VALUE. `label_text`: the display text of the kinds whose label the source does not give (D12; assumption 13). -/
opaque labelText : Machine.OpenLabel → String

/-- FREE VALUE. `note`: the `human_note` of an MU record, which no claim may read (D13; assumption 13). -/
opaque muNote : Machine.MuRecord → String

/-- FREE VALUE. `note`: the `human_note` of a DU record, which no claim may read (D13; assumption 13). -/
opaque duNote : Machine.DuRecord → String

/-- FREE VALUE. Which of several agents that can move moves next, when the state's schedule gives none: the interleaving is
free (R12, R139, I11; assumption 4). -/
opaque arbiter : Nat → Nat

end Sys2Proof.Config
end

