-- ==== Sys2Proof/WellFormed.lean ====
section
/-! DEFINITION. Which terms of `Instr` stand for a row of the table. Operand widths are in the types (40_primitives.md R71),
so one check remains: the general `DIV` row excludes the divisor 0000, which the more specific row takes. -/

namespace Sys2Proof

/-- R97 applies to `D ≠ 0000` only; `D = 0000` is the row of R98. -/
def Instr.wellFormed : Instr → Bool
  | .mul _ _ => true
  | .div _ d => d != 0#4
  | .divZero _ => true
  | .muSub => true
  | .muAdd => true
  | .muNop00 => true
  | .muNop11 => true
  | .muAsr => true
  | .muFinal => true
  | .duShl => true
  | .duSub => true
  | .duAdd => true
  | .duSetq0 => true
  | .duRestore => true
  | .duFinal => true

end Sys2Proof
end

