-- ==== Sys2Proof/Decode.lean ====
section
/-! DEFINITION. From code words to instructions and back: the command word (30_encoding.md R50 to R57, R62) and the
internal decode tables (R58 to R61). -/

namespace Sys2Proof

/-- Why a code word selects no instruction. -/
inductive DecodeError
  /-- A number that does not fit in the 9 bits of a command word (R51, R62). -/
  | notNineBits (n : Nat)
  /-- A quiescent sequencer state: the unit takes no step (10_state.md R32, the last rows of R90 and R109). -/
  | quiescent
  /-- MU in `OP`: the control pair selects the step, the state alone does not (R58). -/
  | needsPair
  /-- DU in `ADJUST` or `RESTORE`: a sign bit selects the step, the state alone does not (R59, R61). -/
  | needsSign
  /-- The correction select answered 0: no restore step and no record (R61). -/
  | noRestore
  deriving DecidableEq, Repr

/-- Field `op`, bit 8 (R51). -/
def opField (w : Cmd) : Bit := w.extractLsb' 8 1

/-- Field `a`, bits 7:4: multiplicand or dividend (R51). -/
def fieldA (w : Cmd) : Nibble := w.extractLsb' 4 4

/-- Field `b`, bits 3:0: multiplier or divisor (R51). -/
def fieldB (w : Cmd) : Nibble := w.extractLsb' 0 4

/-- `o aaaa bbbb`, most significant bit first (R51). -/
def packCommand (op : Bit) (a b : Nibble) : Cmd := op ++ a ++ b

/-- The instruction of a command word; every one of the 512 words has one (R52, R55, R56). -/
def decodeCommand (w : Cmd) : Instr :=
  if opField w = 0#1 then .mul (fieldA w) (fieldB w)
  else if fieldB w = 0#4 then .divZero (fieldA w)
  else .div (fieldA w) (fieldB w)

/-- The Booth control-pair table (R58). -/
def decodePair (c : Pair) : Instr :=
  if c = 0b10#2 then .muSub
  else if c = 0b01#2 then .muAdd
  else if c = 0b00#2 then .muNop00
  else .muNop11

/-- MU's steps that the sequencer state alone selects (R90). -/
def decodeMuSeq : MuSt → Except DecodeError Instr
  | .idle => .error .quiescent
  | .op => .error .needsPair
  | .shift => .ok .muAsr
  | .final => .ok .muFinal
  | .done => .error .quiescent

/-- The division adjust select (R59). -/
def decodeAdjust (sign : Bit) : Instr := if sign = 0#1 then .duSub else .duAdd

/-- The final-correction select (R61). -/
def decodeCorrect (sign : Bit) : Except DecodeError Instr :=
  if sign = 1#1 then .ok .duRestore else .error .noRestore

/-- DU's steps that the sequencer state alone selects (R109). -/
def decodeDuSeq : DuSt → Except DecodeError Instr
  | .idle => .error .quiescent
  | .shift => .ok .duShl
  | .adjust => .error .needsSign
  | .setq0 => .ok .duSetq0
  | .restore => .error .needsSign
  | .final => .ok .duFinal
  | .done => .error .quiescent
  | .error => .error .quiescent

/-- The instruction a code word selects, or the name of why it selects none. -/
def decode : CodeWord → Except DecodeError Instr
  | .cmd9 w => .ok (decodeCommand w)
  | .muPair c => .ok (decodePair c)
  | .muSeq st => decodeMuSeq st
  | .duAdjust sign => .ok (decodeAdjust sign)
  | .duCorrect sign => decodeCorrect sign
  | .duSeq st => decodeDuSeq st

/-- A number read as a command word: exactly the numbers below 512 are words (R51, R56, R62). -/
def decodeWord (n : Nat) : Except DecodeError Instr :=
  if n < 512 then decode (.cmd9 (BitVec.ofNat 9 n)) else .error (.notNineBits n)

/-- The code word of an instruction, from the same tables (R51, R58 to R61, R90, R109). -/
def encode : Instr → CodeWord
  | .mul x y => .cmd9 (packCommand 0#1 x y)
  | .div x d => .cmd9 (packCommand 1#1 x d)
  | .divZero x => .cmd9 (packCommand 1#1 x 0#4)
  | .muSub => .muPair 0b10#2
  | .muAdd => .muPair 0b01#2
  | .muNop00 => .muPair 0b00#2
  | .muNop11 => .muPair 0b11#2
  | .muAsr => .muSeq .shift
  | .muFinal => .muSeq .final
  | .duShl => .duSeq .shift
  | .duSub => .duAdjust 0#1
  | .duAdd => .duAdjust 1#1
  | .duSetq0 => .duSeq .setq0
  | .duRestore => .duCorrect 1#1
  | .duFinal => .duSeq .final

/-- The unit a code word addresses: bit 8 of a command word (R52), else the unit whose decode table it belongs to. -/
def CodeWord.unit : CodeWord → UnitName
  | .cmd9 w => if opField w = 0#1 then .mu else .du
  | .muPair _ => .mu
  | .muSeq _ => .mu
  | .duAdjust _ => .du
  | .duCorrect _ => .du
  | .duSeq _ => .du

/-- The instruction of a word numbered as spec/opcode_table.json numbers it. The 9-bit rows come in two bytes; a word of one
byte is read in the table of format `MU_PAIR`. The table's `DU_SIGN` rows have the same one-byte words 0 and 1, and its rows
selected by a state have no bits: a bare word cannot tell them apart (assumption 11; `decode` tells them apart by format). -/
def decodeTableWord (nbits w : Nat) : Option Instr :=
  if nbits = 0 then none
  else if nbits ≤ 8 then
    if w < 4 then (decode (.muPair (BitVec.ofNat 2 w))).toOption else none
  else (decodeWord w).toOption

end Sys2Proof
end

