-- ==== Sys2Proof/Machine/Operands.lean ====
section
/-! DEFINITION. BinaryArithmetic, the primitives both units share (40_primitives.md R66 to R77), and the assembly of operands
(30_encoding.md R53). All are total functions; every carry out is dropped (R11). -/

namespace Sys2Proof.Machine

variable {w : Nat}

/-- `complement_w`: bitwise invert, then add 1, modulo 2^w (R68). -/
def complement (b : BitVec w) : BitVec w := ~~~b + 1#w

/-- `add_w`: addition modulo 2^w (R70). -/
def add (a b : BitVec w) : BitVec w := a + b

/-- `sub_w(a, b) = add_w(a, complement_w(b))` (R72). -/
def sub (a b : BitVec w) : BitVec w := add a (complement b)

/-- `sval_w`, the source's `to_signed_decimal`: sign-bit test, then invert and add 1 for negatives (R75). -/
def sval (b : BitVec w) : Int := if b.msb = false then (b.toNat : Int) else -((complement b).toNat : Int)

/-- `C = A ‖ Q ‖ q`, the 9 bits the Booth shift works on (R74). -/
def boothWord (a q : Nibble) (p : Bit) : BitVec 9 := a ++ q ++ p

/-- `asr(A, Q, q)`: the 9 bits shifted right by 1 with the MSB replicated, split again (R74). -/
def asr (a q : Nibble) (p : Bit) : Nibble × Nibble × Bit :=
  let c := (boothWord a q p).sshiftRight 1
  (c.extractLsb' 5 4, c.extractLsb' 1 4, c.extractLsb' 0 1)

/-- `C = A ‖ Q`, the 9 bits the division shift works on (R76). -/
def divWord (a : Acc) (q : Nibble) : BitVec 9 := a ++ q

/-- `shl(A, Q)`: the 9 bits shifted left by 1, 0 entering below, split again (R76). -/
def shl (a : Acc) (q : Nibble) : Acc × Nibble :=
  let c := divWord a q <<< 1
  (c.extractLsb' 4 5, c.extractLsb' 0 4)

/-- `zext_5(b) = 0 ‖ b`, the loading of the divisor (R77, R53). -/
def zext5 (b : Nibble) : Acc := 0#1 ++ b

/-- `P = A ‖ Q` (41_booth.md R88). -/
def product (a q : Nibble) : Product := a ++ q

/-- `Q[3:1] ‖ q0` (42_division.md R104). -/
def withQ0 (q : Nibble) (q0 : Bit) : Nibble := q.extractLsb' 1 3 ++ q0

end Sys2Proof.Machine
end

