-- ==== Sys2Proof/Machine/State.lean ====
section
/-! DEFINITION. The state of the block, its faults and refusals, and the state after reset (10_state.md; 70 R140, R143).
`none` in a register is the spec's ⊥, "holds no value" (R10, R20). The block has no memory (20_memory.md R41). -/

namespace Sys2Proof.Machine

/-- MU's state (R17, R21, R23, R24, R25). -/
structure Mu where
  /-- `MU.A`, accumulator; high half of the product -/
  a     : Option Nibble
  /-- `MU.Q`, multiplier, then low half of the product -/
  q     : Option Nibble
  /-- `MU.Qm1`, the bit last shifted out of Q -/
  qm1   : Option Bit
  /-- `MU.M`, multiplicand -/
  m     : Option Nibble
  /-- `MU.Y`, latch of the multiplier operand -/
  y     : Option Nibble
  /-- `MU.st` -/
  st    : MuSt
  /-- `MU.k`, iteration counter -/
  k     : Option Counter
  /-- `MU.n`, the idx of the next record -/
  n     : Nat
  /-- `MU.trace`, oldest record first -/
  trace : List MuRecord
  deriving DecidableEq, Repr

/-- DU's state (R18, R22, R23, R24, R25). -/
structure Du where
  /-- `DU.A`, remainder / accumulator -/
  a     : Option Acc
  /-- `DU.Q`, dividend, then quotient -/
  q     : Option Nibble
  /-- `DU.M`, divisor, zero-extended -/
  m     : Option Acc
  /-- `DU.X`, latch of the dividend operand -/
  x     : Option Nibble
  /-- `DU.st` -/
  st    : DuSt
  /-- `DU.k`, iteration counter -/
  k     : Option Counter
  /-- `DU.n`, the idx of the next record -/
  n     : Nat
  /-- `DU.trace`, oldest record first -/
  trace : List DuRecord
  deriving DecidableEq, Repr

/-- The agents (00_scope.md R12). -/
inductive Agent
  | mu
  | du
  | host
  deriving DecidableEq, Repr

/-- The host's moves (60_exceptions.md R135). `takeResult` is the reading of a result from the final record (R135, R148). -/
inductive HostMove
  | issue (w : Cmd)
  | reset
  | readStatus (u : UnitName)
  | readTrace (u : UnitName)
  | wait (u : UnitName)
  | takeResult (u : UnitName)
  deriving DecidableEq, Repr

/-- What a read of the host returns (R30, R135). -/
inductive Reply
  | status (busy done err : Bool)
  | muTrace (t : List MuRecord)
  | duTrace (t : List DuRecord)
  /-- the product and the decimal fields of `MU_FINAL` -/
  | product (f : MuFinal)
  /-- quotient `Q`, remainder `A` and the decimal fields of `DU_FINAL` -/
  | quotient (q : Nibble) (a : Acc) (f : DuFinal)
  deriving DecidableEq, Repr

/-- One moment: the agent that moves, and whether the reset input is asserted at that same moment (R141). -/
structure Turn where
  agent : Agent
  reset : Bool
  deriving DecidableEq, Repr

/-- A register or latch that can hold ⊥, for the fault that reading one raises. -/
inductive Reg
  | muA
  | muQ
  | muQm1
  | muM
  | muY
  | muK
  | duA
  | duQ
  | duM
  | duX
  | duK
  deriving DecidableEq, Repr

/-- The model faults of 60_exceptions.md R122. -/
inductive Fault
  /-- A micro-step, or the choice of one, reads a register that holds ⊥ (R20, R122). Raised by `readReg`, `Mu.codeWord` and
  `Du.codeWord`. Safe: the spec gives no value there, and no state that a run reaches raises it. -/
  | readUnwritten (r : Reg)
  /-- The host takes a result of a unit that is busy or whose trace ends with no final record (R122, R148). Raised by the
  host's move `takeResult`. Safe: the spec gives no value. -/
  | noResult (u : UnitName)
  deriving DecidableEq, Repr

/-- Why the model gives an instruction no step. -/
inductive Refusal
  /-- An arm of `exec` without a meaning. Raised by no arm of this model. Safe. -/
  | notModelled (mnemonic : String)
  /-- A micro-step asked for outside the state and condition that select it: no row of the transition tables R90 and R109 has
  it. Raised by the micro-steps' meanings. Safe; `step` never asks for one. -/
  | stepNotEnabled (i : Instr)
  deriving DecidableEq, Repr

/-- The state of the machine: the two units and the refusal mark, then the inputs to come and the host's last answer. -/
structure State where
  mu          : Mu
  du          : Du
  /-- the refusal mark of R149: some command was refused -/
  refusalMark : Bool
  /-- the host's coming moves, first one first -/
  host        : List HostMove
  /-- what the host's latest read returned -/
  reply       : Option Reply
  /-- the coming moments, first one first -/
  sched       : List Turn
  /-- how often the free choice of the next agent was taken (assumption 4) -/
  tick        : Nat
  deriving DecidableEq, Repr

/-- MU after reset (R33, R140). -/
def Mu.blank : Mu :=
  { a := none, q := none, qm1 := none, m := none, y := none, st := .idle, k := none, n := 0, trace := [] }

/-- DU after reset (R33, R140). -/
def Du.blank : Du :=
  { a := none, q := none, m := none, x := none, st := .idle, k := none, n := 0, trace := [] }

/-- Power-on (R143): both units in the reset state of R140, nothing refused, nothing to come. -/
def State.reset : State :=
  { mu := Mu.blank, du := Du.blank, refusalMark := false, host := [], reply := none, sched := [], tick := 0 }

end Sys2Proof.Machine
end

