-- ==== Sys2Proof/Machine/Flags.lean ====
section
/-! DEFINITION. Conditions and status levels (10_state.md R27 to R32). There is no flag register (R29): the conditions are bits
of `MU.Q`, `MU.Qm1` and `DU.A`, and the levels are derived from the sequencer states. -/

namespace Sys2Proof.Machine

/-- The control pair `Q[0] ‖ Qm1` (41_booth.md R83). -/
def controlPair (q : Nibble) (p : Bit) : Pair := q.extractLsb' 0 1 ++ p

/-- The sign bit `A[4]` (R28). -/
def signBit (a : Acc) : Bit := a.extractLsb' 4 1

/-- The quotient bit: 1 if A_temp is non-negative, 0 if it is negative (30_encoding.md R60). -/
def quotientBit (a : Acc) : Bit := ~~~(signBit a)

/-- `MU.busy` (R30). -/
def Mu.busy (m : Mu) : Bool :=
  match m.st with
  | .idle => false
  | .op => true
  | .shift => true
  | .final => true
  | .done => false

/-- `MU.done` (R30). -/
def Mu.done (m : Mu) : Bool := m.st == .done

/-- `MU.err`: hardwired 0 (R30, R91). -/
def Mu.err (_ : Mu) : Bool := false

/-- `DU.busy` (R30). -/
def Du.busy (d : Du) : Bool :=
  match d.st with
  | .idle => false
  | .shift => true
  | .adjust => true
  | .setq0 => true
  | .restore => true
  | .final => true
  | .done => false
  | .error => false

/-- `DU.done` (R30). -/
def Du.done (d : Du) : Bool := d.st == .done

/-- `DU.err` (R30, R31). -/
def Du.err (d : Du) : Bool := d.st == .error

/-- `U.busy` of a unit of the state. -/
def State.busy (s : State) : UnitName → Bool
  | .mu => s.mu.busy
  | .du => s.du.busy

end Sys2Proof.Machine
end

