-- ==== Sys2Proof/Machine/Ops.lean ====
section
/-! DEFINITION. The shared operations: reading a register, appending a record, starting a run, the divide-by-zero outcome,
refusing a command, reset, and the host's reads. The instructions' meanings are written over them. -/

namespace Sys2Proof.Machine

/-- The outcome of an instruction or a step. -/
abbrev Out := Host.Outcome State Fault Refusal

/-- Reads register `r`, whose content is `v`: a register that holds ⊥ faults, it gives no value (R10, R20, R122). -/
def readReg {α : Type} (r : Reg) (v : Option α) (use : α → Out) : Out :=
  match v with
  | none => .fault (.readUnwritten r)
  | some x => use x

/-- `emit` in MU: one record with `idx = n`, appended; `n` goes up by 1 (R13). -/
def Mu.emit (m : Mu) (kind : MuKind) (a q : Nibble) (p : Bit) (fin : Option MuFinal) : Mu :=
  { m with trace := m.trace ++ [{ idx := m.n, kind := kind, a := a, q := q, qm1 := p, fin := fin }], n := m.n + 1 }

/-- `emit` in DU (R13). Only the `DU_ERROR` record has a message, and no step emits it. -/
def Du.emit (d : Du) (kind : DuKind) (a : Acc) (q : Nibble) (fin : Option DuFinal) : Du :=
  { d with trace := d.trace ++ [{ idx := d.n, kind := kind, a := a, q := q, msg := none, fin := fin }], n := d.n + 1 }

/-- MU right after the start step of R82, whatever it held before (R34). -/
def Mu.start (x y : Nibble) : Mu :=
  { a := some 0#4, q := some y, qm1 := some 0#1, m := some x, y := some y, st := .op, k := some 0#3, n := 1
    trace := [{ idx := 0, kind := .init, a := 0#4, q := y, qm1 := 0#1, fin := none }] }

/-- DU right after the start step of R97, whatever it held before (R34). -/
def Du.start (x d : Nibble) : Du :=
  { a := some 0#5, q := some x, m := some (zext5 d), x := some x, st := .shift, k := some 0#3, n := 1
    trace := [{ idx := 0, kind := .init, a := 0#5, q := x, msg := none, fin := none }] }

/-- TAKING THE EXCEPTION `DivideByZero` (60_exceptions.md R119, R120, R126): the run ends in `ERROR` with the one `DU_ERROR`
record, which carries the dividend and the message. No state is saved and no handler runs (R126); there is no return: only a
new DIV command or reset leaves `ERROR` (R127, 42_division.md R108). -/
def Du.raiseDivideByZero (d : Du) (dividend : Nibble) : Du :=
  { d with
    st := .error
    trace := [{ idx := 0, kind := .error, a := 0#5, q := dividend, msg := some Config.divideByZeroMessage, fin := none }]
    n := 1 }

/-- DU right after the start step of R98: the registers are loaded, then the exception is raised. -/
def Du.startZero (x : Nibble) : Du :=
  Du.raiseDivideByZero { Du.blank with a := some 0#5, q := some x, m := some 0#5, x := some x, k := some 0#3 } x

/-- The exception a unit's run has ended with, by its code (R119; 0 is no error, D28). -/
def Du.exceptionCode (d : Du) : Nat := if d.err then Config.divideByZeroCode else 0

/-- A command to a busy unit: no step, the units go on unaffected, the refusal mark is set (R55, R149). -/
def State.refuseCommand (s : State) : State := { s with refusalMark := true }

/-- Issues a command to MU: refused while busy, else MU becomes `m` (R55). -/
def startMu (m : Mu) (s : State) : Out :=
  if s.mu.busy = true then .next s.refuseCommand else .next { s with mu := m }

/-- Issues a command to DU: refused while busy, else DU becomes `d` (R55). -/
def startDu (d : Du) (s : State) : Out :=
  if s.du.busy = true then .next s.refuseCommand else .next { s with du := d }

/-- The reset input: both units at once; the refusal mark stays (R140, R149; assumption 3). -/
def applyReset (s : State) : State := { s with mu := Mu.blank, du := Du.blank }

/-- A micro-step of MU that state `st` alone selects; elsewhere there is no such step (R90). -/
def inMuState (i : Instr) (st : MuSt) (s : State) (body : Out) : Out :=
  if s.mu.st = st then body else .refused (.stepNotEnabled i)

/-- A micro-step of MU that the control pair `c` selects in `OP` (R58, R83). The pair is read from the registers as they
stand. -/
def inMuPair (i : Instr) (c : Pair) (s : State) (body : Nibble → Bit → Out) : Out :=
  inMuState i .op s <|
    readReg .muQ s.mu.q fun q =>
    readReg .muQm1 s.mu.qm1 fun p =>
    if controlPair q p = c then body q p else .refused (.stepNotEnabled i)

/-- A micro-step of DU that state `st` alone selects; elsewhere there is no such step (R109). -/
def inDuState (i : Instr) (st : DuSt) (s : State) (body : Out) : Out :=
  if s.du.st = st then body else .refused (.stepNotEnabled i)

/-- A micro-step of DU that the sign `sign` of the shifted `A` selects in `ADJUST` (R59, R105). -/
def inDuAdjust (i : Instr) (sign : Bit) (s : State) (body : Acc → Out) : Out :=
  inDuState i .adjust s <|
    readReg .duA s.du.a fun a =>
    if signBit a = sign then body a else .refused (.stepNotEnabled i)

/-- An operation step of MU: `A` gets `a`, the record shows it before the shift, `SHIFT` is next (R84, R85, R86). -/
def muOperation (kind : MuKind) (a q : Nibble) (p : Bit) (s : State) : Out :=
  .next { s with mu := { s.mu.emit kind a q p none with a := some a, st := .shift } }

/-- The no-change operation step of MU, for either pair that selects it (R86). -/
def muNoOperation (i : Instr) (c : Pair) (s : State) : Out :=
  inMuPair i c s fun q p =>
  readReg .muA s.mu.a fun a =>
  muOperation .nop a q p s

/-- An adjust step of DU: `A` gets A_temp, `SETQ0` is next (R101, R102, R103). -/
def duAdjustStep (kind : DuKind) (a : Acc) (q : Nibble) (s : State) : Out :=
  .next { s with du := { s.du.emit kind a q none with a := some a, st := .setq0 } }

/-- What `read_status(U)` returns (R30, R135). -/
def statusOf (u : UnitName) (s : State) : Reply :=
  match u with
  | .mu => .status s.mu.busy s.mu.done s.mu.err
  | .du => .status s.du.busy s.du.done s.du.err

/-- What `read_trace(U)` returns: the records so far (R46, R135). -/
def traceOf (u : UnitName) (s : State) : Reply :=
  match u with
  | .mu => .muTrace s.mu.trace
  | .du => .duTrace s.du.trace

/-- MU's result: the final record's product and decimals, when MU is not busy and its trace ends with `MU_FINAL` (R135, R148). -/
def Mu.result (m : Mu) : Option Reply :=
  if m.busy = true then none
  else match m.trace.getLast? with
    | none => none
    | some r => r.fin.map .product

/-- DU's result: the final record's quotient, remainder and decimals, when DU is not busy and its trace ends with `DU_FINAL`
(R135, R148). -/
def Du.result (d : Du) : Option Reply :=
  if d.busy = true then none
  else match d.trace.getLast? with
    | none => none
    | some r => r.fin.map (.quotient r.q r.a)

/-- The result the host takes from a unit, if there is one. -/
def resultOf (u : UnitName) (s : State) : Option Reply :=
  match u with
  | .mu => s.mu.result
  | .du => s.du.result

end Sys2Proof.Machine
end

