-- ==== Sys2Proof/Machine/Booth.lean ====
section
/-! DEFINITION. MU's micro-steps (41_booth.md R83 to R90). -/

namespace Sys2Proof.Machine

/-- `MU_SUB`: `A <- sub_4(A, M)` (R84). -/
def execMuSub (s : State) : Out :=
  inMuPair .muSub 0b10#2 s fun q p =>
  readReg .muA s.mu.a fun a =>
  readReg .muM s.mu.m fun m =>
  muOperation .sub (sub a m) q p s

/-- `MU_ADD`: `A <- add_4(A, M)` (R85). -/
def execMuAdd (s : State) : Out :=
  inMuPair .muAdd 0b01#2 s fun q p =>
  readReg .muA s.mu.a fun a =>
  readReg .muM s.mu.m fun m =>
  muOperation .add (add a m) q p s

/-- `MU_NOP` on pair `00` (R86). -/
def execMuNop00 (s : State) : Out := muNoOperation .muNop00 0b00#2 s

/-- `MU_NOP` on pair `11` (R86). -/
def execMuNop11 (s : State) : Out := muNoOperation .muNop11 0b11#2 s

/-- `MU_ASR`: the arithmetic shift right of `A ‖ Q ‖ Qm1`; the iteration counter goes up (R87). -/
def execMuAsr (s : State) : Out :=
  inMuState .muAsr .shift s <|
    readReg .muA s.mu.a fun a =>
    readReg .muQ s.mu.q fun q =>
    readReg .muQm1 s.mu.qm1 fun p =>
    readReg .muK s.mu.k fun k =>
    let r := asr a q p
    .next { s with mu := { s.mu.emit .asr r.1 r.2.1 r.2.2 none with
      a := some r.1
      q := some r.2.1
      qm1 := some r.2.2
      k := some (k + 1#3)
      st := if k + 1#3 = Config.iterations then .final else .op } }

/-- `MU_FINAL`: the record with the product and the decimals; the run is done (R88, R38). -/
def execMuFinal (s : State) : Out :=
  inMuState .muFinal .final s <|
    readReg .muA s.mu.a fun a =>
    readReg .muQ s.mu.q fun q =>
    readReg .muQm1 s.mu.qm1 fun p =>
    readReg .muM s.mu.m fun m =>
    readReg .muY s.mu.y fun y =>
    .next { s with mu := { s.mu.emit .final a q p (some
        { p := product a q, pDec := sval (product a q), mDec := sval m, yDec := sval y }) with st := .done } }

end Sys2Proof.Machine
end

