-- ==== Sys2Proof/Machine/Command.lean ====
section
/-! DEFINITION. The host's commands: `MUL` (41_booth.md R82) and `DIV` (42_division.md R97, R98). -/

namespace Sys2Proof.Machine

/-- `MUL x, y` (R82). -/
def execMul (x y : Nibble) (s : State) : Out := startMu (Mu.start x y) s

/-- `DIV x, d`: with `d ≠ 0000` the start step of R97. The term with `d = 0000` is not well-formed; it takes the branch R55
gives those words (assumption 10). -/
def execDiv (x d : Nibble) (s : State) : Out :=
  startDu (if d = 0#4 then Du.startZero x else Du.start x d) s

/-- `DIV x, 0000`: the divide-by-zero start step (R98). -/
def execDivZero (x : Nibble) (s : State) : Out := startDu (Du.startZero x) s

end Sys2Proof.Machine
end

