-- ==== Sys2Proof/Machine/Division.lean ====
section
/-! DEFINITION. DU's micro-steps (42_division.md R100 to R109). -/

namespace Sys2Proof.Machine

/-- `DU_SHL`: the shift left of `A ‖ Q` (R100). -/
def execDuShl (s : State) : Out :=
  inDuState .duShl .shift s <|
    readReg .duA s.du.a fun a =>
    readReg .duQ s.du.q fun q =>
    let r := shl a q
    .next { s with du := { s.du.emit .shl r.1 r.2 none with a := some r.1, q := some r.2, st := .adjust } }

/-- `DU_SUB`: `A <- sub_5(A, M)`, A_temp (R101). -/
def execDuSub (s : State) : Out :=
  inDuAdjust .duSub 0#1 s fun a =>
  readReg .duM s.du.m fun m =>
  readReg .duQ s.du.q fun q =>
  duAdjustStep .sub (sub a m) q s

/-- `DU_ADD`: `A <- add_5(A, M)`, A_temp (R102). -/
def execDuAdd (s : State) : Out :=
  inDuAdjust .duAdd 1#1 s fun a =>
  readReg .duM s.du.m fun m =>
  readReg .duQ s.du.q fun q =>
  duAdjustStep .add (add a m) q s

/-- Where set-Q0 goes: another iteration, the restore step, or the final record (R104, R61). `k` is the counter after the
step. -/
def afterSetQ0 (k : Counter) (a : Acc) : DuSt :=
  if k < Config.iterations then .shift
  else if signBit a = 1#1 then .restore
  else .final

/-- `DU_SETQ0`: the quotient bit from the sign of A_temp; the iteration counter goes up (R104). -/
def execDuSetq0 (s : State) : Out :=
  inDuState .duSetq0 .setq0 s <|
    readReg .duA s.du.a fun a =>
    readReg .duQ s.du.q fun q =>
    readReg .duK s.du.k fun k =>
    let q' := withQ0 q (quotientBit a)
    .next { s with du := { s.du.emit .setq0 a q' none with
      q := some q'
      k := some (k + 1#3)
      st := afterSetQ0 (k + 1#3) a } }

/-- `DU_RESTORE`: `A <- add_5(A, M)` (R106). -/
def execDuRestore (s : State) : Out :=
  inDuState .duRestore .restore s <|
    readReg .duA s.du.a fun a =>
    readReg .duM s.du.m fun m =>
    readReg .duQ s.du.q fun q =>
    .next { s with du := { s.du.emit .restore (add a m) q none with a := some (add a m), st := .final } }

/-- `DU_FINAL`: the record with the decimals; the run is done (R107, R38). -/
def execDuFinal (s : State) : Out :=
  inDuState .duFinal .final s <|
    readReg .duA s.du.a fun a =>
    readReg .duQ s.du.q fun q =>
    readReg .duM s.du.m fun m =>
    readReg .duX s.du.x fun x =>
    .next { s with du := { s.du.emit .final a q (some
        { xDec := sval x, mDec := sval m, qDec := sval q, rDec := sval a }) with st := .done } }

end Sys2Proof.Machine
end

