-- ==== Sys2Proof/Machine/Dispatch.lean ====
section
/-! DEFINITION. One arm per row of the opcode table. -/

namespace Sys2Proof.Machine

def exec (i : Instr) (s : State) : Host.Outcome State Fault Refusal :=
  match i with
  | .mul x y => Sys2Proof.Machine.execMul x y s
  | .div x d => Sys2Proof.Machine.execDiv x d s
  | .divZero x => Sys2Proof.Machine.execDivZero x s
  | .muSub => Sys2Proof.Machine.execMuSub s
  | .muAdd => Sys2Proof.Machine.execMuAdd s
  | .muNop00 => Sys2Proof.Machine.execMuNop00 s
  | .muNop11 => Sys2Proof.Machine.execMuNop11 s
  | .muAsr => Sys2Proof.Machine.execMuAsr s
  | .muFinal => Sys2Proof.Machine.execMuFinal s
  | .duShl => Sys2Proof.Machine.execDuShl s
  | .duSub => Sys2Proof.Machine.execDuSub s
  | .duAdd => Sys2Proof.Machine.execDuAdd s
  | .duSetq0 => Sys2Proof.Machine.execDuSetq0 s
  | .duRestore => Sys2Proof.Machine.execDuRestore s
  | .duFinal => Sys2Proof.Machine.execDuFinal s

end Sys2Proof.Machine
end

