-- ==== Sys2Proof/Machine/Agents.lean ====
section
/-! DEFINITION. The agents' moves (00_scope.md R12; 60_exceptions.md R135): what each unit's control point selects, the host's
moves, and which agent a moment gives. `step` calls only this file. -/

namespace Sys2Proof.Machine

/-- What MU's control point selects: in `OP` the control pair, elsewhere the state (10_state.md R26, R83, R90). A pair that would be
read from ⊥ is the fault of R20 and R122; no run reaches it. -/
def Mu.codeWord (m : Mu) : Except Fault CodeWord :=
  match m.st with
  | .op =>
    match m.q, m.qm1 with
    | some q, some p => .ok (.muPair (controlPair q p))
    | none, _ => .error (.readUnwritten .muQ)
    | some _, none => .error (.readUnwritten .muQm1)
  | st => .ok (.muSeq st)

/-- What DU's control point selects: in `ADJUST` the sign of `A`, in `RESTORE` the correction row, which is always taken there,
elsewhere the state (R26, R59, R106, R109). A sign that would be read from ⊥ is the fault of R20 and R122; no run reaches it. -/
def Du.codeWord (d : Du) : Except Fault CodeWord :=
  match d.st with
  | .adjust =>
    match d.a with
    | some a => .ok (.duAdjust (signBit a))
    | none => .error (.readUnwritten .duA)
  | .restore => .ok (.duCorrect 1#1)
  | st => .ok (.duSeq st)

/-- Runs what a code word selects. A code word that selects no instruction is a quiescent unit's: it takes no step (R32). -/
def runCode (c : CodeWord) (s : State) : Out :=
  match decode c with
  | .ok i => exec i s
  | .error _ => .next s

/-- Runs what a unit's control point selects. -/
def runUnit (c : Except Fault CodeWord) (s : State) : Out :=
  match c with
  | .ok w => runCode w s
  | .error f => .fault f

/-- One move of the host (R135). A `wait` on a busy unit is not enabled: it stays the host's next move (R136). -/
def hostMove (m : HostMove) (rest : List HostMove) (s : State) : Out :=
  match m with
  | .issue w => runCode (.cmd9 w) { s with host := rest }
  | .reset => .next (applyReset { s with host := rest })
  | .readStatus u => .next { s with host := rest, reply := some (statusOf u s) }
  | .readTrace u => .next { s with host := rest, reply := some (traceOf u s) }
  | .wait u => if s.busy u = true then .next s else .next { s with host := rest }
  | .takeResult u =>
    match resultOf u s with
    | some r => .next { s with host := rest, reply := some r }
    | none => .fault (.noResult u)

/-- The host's next move; a host with none to make makes none. -/
def runHost (s : State) : Out :=
  match s.host with
  | [] => .next s
  | m :: rest => hostMove m rest s

/-- The move of one agent. -/
def runAgent (a : Agent) (s : State) : Out :=
  match a with
  | .mu => runUnit s.mu.codeWord s
  | .du => runUnit s.du.codeWord s
  | .host => runHost s

/-- The command that falls at the same moment as reset is dropped (R125, R141). Only a command is: the host's other moves wait
for a later moment (assumption 6). -/
def dropCommand (a : Agent) (s : State) : State :=
  match a, s.host with
  | .host, .issue _ :: rest => { s with host := rest }
  | _, _ => s

/-- One moment: reset takes precedence over any step or command of the same moment (R125, R141). -/
def runTurn (t : Turn) (s : State) : Out :=
  if t.reset = true then .next (applyReset (dropCommand t.agent s)) else runAgent t.agent s

/-- Whether the host can move: it has a move, and that is not a wait on a busy unit (R135). -/
def State.hostReady (s : State) : Bool :=
  match s.host with
  | [] => false
  | .wait u :: _ => !(s.busy u)
  | _ :: _ => true

/-- The agents that can move (R12, R32, R135). -/
def State.ready (s : State) : List Agent :=
  (if s.mu.busy = true then [.mu] else []) ++ (if s.du.busy = true then [.du] else []) ++
    (if s.hostReady = true then [.host] else [])

/-- Who moves now, and the state with that choice used up. The schedule gives the moment; past its end one of the agents that
can move does, and where there are several the free value `Config.arbiter` picks (R12, R139, I11; assumption 4). -/
def State.nextTurn (s : State) : Option Turn × State :=
  match s.sched with
  | t :: rest => (some t, { s with sched := rest })
  | [] =>
    match s.ready with
    | [] => (none, s)
    | [a] => (some ⟨a, false⟩, s)
    | a :: b :: more =>
      (some ⟨(a :: b :: more).getD (Config.arbiter s.tick % (more.length + 2)) a, false⟩, { s with tick := s.tick + 1 })

/-- Puts MU at the control point where pair `c` selects its step: state `OP` with `Q[0] ‖ Qm1 = c`. Registers that hold ⊥ are
created, as they are in any run (assumption 12). -/
def Mu.atPair (m : Mu) (c : Pair) : Mu :=
  { m with
    st := .op
    q := some (withQ0 (m.q.getD 0#4) (c.extractLsb' 1 1))
    qm1 := some (c.extractLsb' 0 1)
    a := some (m.a.getD 0#4)
    m := some (m.m.getD 0#4)
    y := some (m.y.getD 0#4)
    k := some (m.k.getD 0#3) }

/-- The state whose next step runs the instruction of a word numbered as the opcode table numbers it: a 9-bit word is the host's
next move, a one-byte word is MU's control pair (assumptions 11, 12). A number that is no word changes nothing. -/
def State.placeWord (s : State) (nbits w : Nat) : State :=
  if nbits = 0 then s
  else if nbits ≤ 8 then
    if w < 4 then { s with mu := s.mu.atPair (BitVec.ofNat 2 w), sched := ⟨.mu, false⟩ :: s.sched } else s
  else if w < 512 then { s with host := .issue (BitVec.ofNat 9 w) :: s.host, sched := ⟨.host, false⟩ :: s.sched }
  else s

end Sys2Proof.Machine
end

