-- ==== Sys2Proof/Machine/Step.lean ====
section
/-! DEFINITION. One step of the block: one moment, in which one agent moves (00_scope.md R12). -/

namespace Sys2Proof.Machine

/-- One step. Where no moment is scheduled and no agent can move, nothing happens (10_state.md R32). -/
def step (s : State) : Host.Outcome State Fault Refusal :=
  match s.nextTurn with
  | (some t, s') => runTurn t s'
  | (none, s') => .next s'

/-- `s` with the instruction of a table word placed so that the very next step runs it. -/
def State.withFetchWord (s : State) (nbits w : Nat) : State := s.placeWord nbits w

end Sys2Proof.Machine
end

