-- ==== Sys2Proof/Machine/Labels.lean ====
section
/-! DEFINITION. The display texts that hang on a record: the source's label of each kind, copied as written with U+2212 minus
signs (10_state.md R36, R37; D12), and the OPEN `note` (R35; D13). No step reads them. -/

namespace Sys2Proof.Machine

/-- The source's label text of an MU kind (R36). -/
def MuKind.label : MuKind → String
  | .init => Config.labelText .muInit
  | .sub => "A = A − M"
  | .add => "A = A + M"
  | .nop => "No Operation"
  | .asr => "Arithmetic Shift Right"
  | .final => Config.labelText .muFinal

/-- The source's label text of a DU kind (R37). -/
def DuKind.label : DuKind → String
  | .error => Config.divideByZeroMessage
  | .init => Config.labelText .duInit
  | .shl => "Shift Left"
  | .sub => "A − M"
  | .add => "A + M"
  | .setq0 => "Set Q0"
  | .restore => "Restore A"
  | .final => Config.labelText .duFinal

/-- The `note` field of an MU record (R35). -/
def MuRecord.note (r : MuRecord) : String := Config.muNote r

/-- The `note` field of a DU record (R35). -/
def DuRecord.note (r : DuRecord) : String := Config.duNote r

end Sys2Proof.Machine
end

