-- ==== Sys2Proof/Machine/Transcribe.lean ====
section
/-! DEFINITION. The boundary in front of the block: from text to host moves (30_encoding.md R54, R63, R64, R65;
60_exceptions.md R121). It refuses by name and position; it never pads or truncates. -/

namespace Sys2Proof.Machine

/-- Why a line is refused (R54, R63). -/
inductive TextError
  /-- operand `index` (1 or 2) has `length` characters, not 4 -/
  | operandLength (index length : Nat)
  /-- operand `index` has the character `c` at `position` (0 is the first) -/
  | operandChar (index position : Nat) (c : Char)
  /-- the two operands are not separated by a comma -/
  | missingComma
  /-- the comma is not followed by a space -/
  | missingSpace
  /-- the line starts with no mnemonic and no directive, in upper case -/
  | unknownLine
  deriving DecidableEq, Repr

/-- Whether a character is a binary digit. -/
def isBit (c : Char) : Bool := c = '0' || c = '1'

/-- Binary digits read MSB first. -/
def bitsValue (cs : List Char) : Nat := cs.foldl (fun n c => 2 * n + if c = '1' then 1 else 0) 0

/-- An operand: exactly four characters from 0 and 1, MSB first (R54, R63). -/
def parseOperand (index : Nat) (cs : List Char) : Except TextError Nibble :=
  if cs.length ≠ 4 then .error (.operandLength index cs.length)
  else match cs.find? (fun c => !isBit c) with
    | some c => .error (.operandChar index (cs.findIdx (fun c => !isBit c)) c)
    | none => .ok (BitVec.ofNat 4 (bitsValue cs))

/-- The two operands of a command: `aaaa, bbbb` (R63). -/
def parseOperands (cs : List Char) : Except TextError (Nibble × Nibble) :=
  match cs.dropWhile (· ≠ ',') with
  | [] => .error .missingComma
  | _ :: ' ' :: second =>
    match parseOperand 1 (cs.takeWhile (· ≠ ',')), parseOperand 2 second with
    | .ok a, .ok b => .ok (a, b)
    | .error e, _ => .error e
    | .ok _, .error e => .error e
  | _ :: _ => .error .missingSpace

/-- A line without its comment and without blanks around it (R63). -/
def lineBody (cs : List Char) : List Char :=
  let body := (cs.takeWhile (· ≠ ';')).dropWhile (· = ' ')
  (body.reverse.dropWhile (· = ' ')).reverse

/-- The command word of `op` and its operands' text. -/
def parseCommand (op : Bit) (operands : List Char) : Except TextError (List HostMove) :=
  match parseOperands operands with
  | .ok (a, b) => .ok [.issue (packCommand op a b)]
  | .error e => .error e

/-- One line: a command, the directives `RESET` and `WAIT`, or nothing but a comment (R63). `WAIT ALL` waits for both. -/
def parseLine (cs : List Char) : Except TextError (List HostMove) :=
  match lineBody cs with
  | [] => .ok []
  | 'M' :: 'U' :: 'L' :: ' ' :: operands => parseCommand 0#1 operands
  | 'D' :: 'I' :: 'V' :: ' ' :: operands => parseCommand 1#1 operands
  | ['R', 'E', 'S', 'E', 'T'] => .ok [.reset]
  | ['W', 'A', 'I', 'T', ' ', 'M', 'U'] => .ok [.wait .mu]
  | ['W', 'A', 'I', 'T', ' ', 'D', 'U'] => .ok [.wait .du]
  | ['W', 'A', 'I', 'T', ' ', 'A', 'L', 'L'] => .ok [.wait .mu, .wait .du]
  | _ => .error .unknownLine

/-- A program, one line after another, counted from `line` (R63). DESIGN CHOICE: the first refused line is reported and refuses
the whole program, the moves of the lines before it included; R54 and R63 speak of a line alone (assumption 15). -/
def parseProgram (line : Nat) : List (List Char) → Except (Nat × TextError) (List HostMove)
  | [] => .ok []
  | l :: ls =>
    match parseLine l with
    | .error e => .error (line, e)
    | .ok moves =>
      match parseProgram (line + 1) ls with
      | .error e => .error e
      | .ok more => .ok (moves ++ more)

/-- One binary digit. -/
def bitChar (b : Bool) : Char := if b then '1' else '0'

/-- The spelling of an operand, MSB first (R63). -/
def operandText (b : Nibble) : List Char := [bitChar b[3], bitChar b[2], bitChar b[1], bitChar b[0]]

/-- The spelling of a command word (R63). -/
def commandText (w : Cmd) : List Char :=
  (if opField w = 0#1 then ['M', 'U', 'L', ' '] else ['D', 'I', 'V', ' ']) ++
    operandText (fieldA w) ++ [',', ' '] ++ operandText (fieldB w)

/-- `decimal_to_4bit`: the 4-bit pattern of a value in -8..7, other values refused (R65; D27). -/
def decimalTo4Bit (v : Int) : Option Nibble := if -8 ≤ v ∧ v ≤ 7 then some (BitVec.ofInt 4 v) else none

end Sys2Proof.Machine
end

