-- ==== Sys2Proof/Safety.lean ====
section
/-! DEFINITION. What the claims speak of: runs of the machine, schedules of the units, and the invariant that ties each unit's
registers, counters and trace to its sequencer state (10_state.md R19 to R26; 41_booth.md R90; 42_division.md R109). -/

namespace Sys2Proof.Machine

/-- `k` steps of the machine, stopping at the first fault or refusal (`Host.Core.run` of `Sys2Proof.core`, spelled out). -/
def run : Nat → State → Out
  | 0, s => .next s
  | k + 1, s =>
    match step s with
    | .next t => run k t
    | .fault f => .fault f
    | .refused r => .refused r

/-- Moments that only the units get, without reset: what may fall between two moves of the host (R12, R139). -/
abbrev UnitTurns (l : List Turn) : Prop := ∀ t ∈ l, t.reset = false ∧ t.agent ≠ .host

/-- How many of the moments agent `a` gets. -/
def turnsOf (a : Agent) (l : List Turn) : Nat := l.countP fun t => t.agent = a

/-- The agent of a unit. -/
def unitAgent : UnitName → Agent
  | .mu => .mu
  | .du => .du

/-- The iteration counter of MU as a number. -/
def Mu.iteration (m : Mu) : Nat := (m.k.getD 0#3).toNat

/-- The iteration counter of DU as a number. -/
def Du.iteration (d : Du) : Nat := (d.k.getD 0#3).toNat

/-- Every register and latch of MU holds a value. -/
abbrev Mu.Live (m : Mu) : Prop :=
  m.a.isSome ∧ m.q.isSome ∧ m.qm1.isSome ∧ m.m.isSome ∧ m.y.isSome ∧ m.k.isSome

/-- Every register and latch of DU holds a value. -/
abbrev Du.Live (d : Du) : Prop :=
  d.a.isSome ∧ d.q.isSome ∧ d.m.isSome ∧ d.x.isSome ∧ d.k.isSome

/-- The final record that MU's registers call for (R88, R38). -/
def Mu.finalRecord (m : Mu) : MuRecord :=
  let a := m.a.getD 0#4
  let q := m.q.getD 0#4
  { idx := 9, kind := .final, a := a, q := q, qm1 := m.qm1.getD 0#1
    fin := some { p := product a q, pDec := sval (product a q), mDec := sval (m.m.getD 0#4), yDec := sval (m.y.getD 0#4) } }

/-- The final record that DU's registers call for, at position `idx` (R107, R38). -/
def Du.finalRecord (d : Du) (idx : Nat) : DuRecord :=
  let a := d.a.getD 0#5
  let q := d.q.getD 0#4
  { idx := idx, kind := .final, a := a, q := q, msg := none
    fin := some { xDec := sval (d.x.getD 0#4), mDec := sval (d.m.getD 0#5), qDec := sval q, rDec := sval a } }

/-- The one record of a divide-by-zero run (R98). -/
def errorRecord (dividend : Nibble) : DuRecord :=
  { idx := 0, kind := .error, a := 0#5, q := dividend, msg := some Config.divideByZeroMessage, fin := none }

/-- MU holds ⊥ and nothing else in `IDLE`, and a value in every register elsewhere (R20, R33). -/
abbrev Mu.RegistersWf (m : Mu) : Prop := (m.st = .idle → m = Mu.blank) ∧ (m.st ≠ .idle → m.Live)

/-- The record counter is the length of the trace, records are numbered from 0 in order, and only `DONE` has a final record,
the last one (R13, R24, R46, R137). -/
abbrev Mu.RecordsWf (m : Mu) : Prop :=
  m.n = m.trace.length ∧
  m.trace.map MuRecord.idx = List.range m.n ∧
  (m.st = .done → m.trace.getLast? = some m.finalRecord) ∧
  (m.st ≠ .done → ∀ r ∈ m.trace, r.kind ≠ .final ∧ r.fin = none)

/-- In each state the record counter agrees with the iteration counter (R23, R90, R92). -/
abbrev Mu.ProgressWf (m : Mu) : Prop :=
  (m.st = .op → m.iteration ≤ 3 ∧ m.n = 2 * m.iteration + 1) ∧
  (m.st = .shift → m.iteration ≤ 3 ∧ m.n = 2 * m.iteration + 2) ∧
  (m.st = .final → m.iteration = 4 ∧ m.n = 9) ∧
  (m.st = .done → m.iteration = 4 ∧ m.n = 10)

/-- MU is as its sequencer state says. -/
abbrev Mu.Wf (m : Mu) : Prop := m.RegistersWf ∧ m.RecordsWf ∧ m.ProgressWf

/-- DU holds ⊥ and nothing else in `IDLE`, and a value in every register elsewhere; the divisor never has its fifth bit set and
is 0 exactly in `ERROR` (R20, R33, R77, R97, R98). -/
abbrev Du.RegistersWf (d : Du) : Prop :=
  (d.st = .idle → d = Du.blank) ∧
  (d.st ≠ .idle → d.Live ∧ signBit (d.m.getD 0#5) = 0#1 ∧ (d.m = some 0#5 ↔ d.st = .error))

/-- As for MU; besides, the trace of `ERROR` is the one error record, with the registers of its start step (R98, R108). -/
abbrev Du.RecordsWf (d : Du) : Prop :=
  d.n = d.trace.length ∧
  d.trace.map DuRecord.idx = List.range d.n ∧
  (d.st = .done → d.trace.getLast? = some (d.finalRecord (d.n - 1))) ∧
  (d.st = .error → d.k = some 0#3 ∧ d.a = some 0#5 ∧ d.q = d.x ∧ d.trace = [errorRecord (d.x.getD 0#4)]) ∧
  (d.st ≠ .done → ∀ r ∈ d.trace, r.kind ≠ .final ∧ r.fin = none)

/-- In each state the record counter agrees with the iteration counter, and `RESTORE` is entered with a negative accumulator
only (R23, R106, R109, R117). -/
abbrev Du.ProgressWf (d : Du) : Prop :=
  (d.st = .shift → d.iteration ≤ 3 ∧ d.n = 3 * d.iteration + 1) ∧
  (d.st = .adjust → d.iteration ≤ 3 ∧ d.n = 3 * d.iteration + 2) ∧
  (d.st = .setq0 → d.iteration ≤ 3 ∧ d.n = 3 * d.iteration + 3) ∧
  (d.st = .restore → d.iteration = 4 ∧ d.n = 13 ∧ signBit (d.a.getD 0#5) = 1#1) ∧
  (d.st = .final → d.iteration = 4 ∧ (d.n = 13 ∨ d.n = 14)) ∧
  (d.st = .done → d.iteration = 4 ∧ (d.n = 14 ∨ d.n = 15))

/-- DU is as its sequencer state says. -/
abbrev Du.Wf (d : Du) : Prop := d.RegistersWf ∧ d.RecordsWf ∧ d.ProgressWf

/-- The transition table of R90: the record kind and the next state of the micro-step that state, control pair and iteration
select; none in a quiescent state. -/
def boothTable (pair : Pair) (k : Nat) : MuSt → Option (MuKind × MuSt)
  | .idle => none
  | .op =>
    some (if pair = 0b10#2 then .sub else if pair = 0b01#2 then .add else .nop, .shift)
  | .shift => some (.asr, if k + 1 < 4 then .op else .final)
  | .final => some (.final, .done)
  | .done => none

/-- The transition table of R109: the record kind and the next state of the micro-step that state, sign `A[4]` and iteration
select; none in a quiescent state. -/
def divisionTable (negative : Bool) (k : Nat) : DuSt → Option (DuKind × DuSt)
  | .idle => none
  | .shift => some (.shl, .adjust)
  | .adjust => some (if negative then .add else .sub, .setq0)
  | .setq0 => some (.setq0, if k + 1 < 4 then .shift else if negative then .restore else .final)
  | .restore => some (.restore, .final)
  | .final => some (.final, .done)
  | .done => none
  | .error => none

/-- The kind of the operation record of iteration `i` for the multiplier `y` (R93): the pair is `Y[i] ‖ Y[i-1]`, `Y[-1] = 0`. -/
def recodedKind (y : Nibble) (i : Nat) : MuKind :=
  match y.getLsbD i, decide (0 < i) && y.getLsbD (i - 1) with
  | true, false => .sub
  | false, true => .add
  | true, true => .nop
  | false, false => .nop

/-- The host's next move is to issue `w`, the next moment is the host's, and after it only the units get the moments `l`. -/
abbrev State.IssuesThen (s : State) (w : Cmd) (l ts : List Turn) : Prop :=
  s.host.head? = some (.issue w) ∧ s.sched = ⟨.host, false⟩ :: (l ++ ts) ∧ UnitTurns l

/-- The invariant of the machine. -/
abbrev State.Inv (s : State) : Prop := s.mu.Wf ∧ s.du.Wf

/-- A state a claim may be read in: no command was refused (60_exceptions.md R138). A fault leaves no state at all. -/
abbrev State.Accepted (s : State) : Prop := s.refusalMark = false

/-- No unit is busy (R32). -/
abbrev State.Quiescent (s : State) : Prop := s.mu.busy = false ∧ s.du.busy = false

end Sys2Proof.Machine
end

