-- ==== Sys2Proof/Certificates/Slice0/Obligations.lean ====
section
/-! DEFINITION. The statements for the provers, from the numbered rules of spec/. A register that holds a value is `some v`;
`none` is the spec's ⊥. Results are written with the library's BitVec operations, not with the model's own primitives. -/

open Sys2Proof Sys2Proof.Machine

/-! ### Reset -/

/-- R33, R143: what each piece of the units' state is at power-on, which is what the reset of R140 leaves. -/
def Obligations.PowerOnStateIsTheResetState : Prop :=
  State.reset.mu =
    { a := none, q := none, qm1 := none, m := none, y := none, st := .idle, k := none, n := 0, trace := [] } ∧
  State.reset.du =
    { a := none, q := none, m := none, x := none, st := .idle, k := none, n := 0, trace := [] } ∧
  (State.reset.mu.busy = false ∧ State.reset.mu.done = false ∧ State.reset.mu.err = false) ∧
  (State.reset.du.busy = false ∧ State.reset.du.done = false ∧ State.reset.du.err = false) ∧
  ∀ s : State, (applyReset s).mu = State.reset.mu ∧ (applyReset s).du = State.reset.du

/-- R140: the host's reset move puts both units in the reset state in one atomic move, from any state. -/
def Obligations.ResetMoveClearsBothUnits : Prop :=
  ∀ (s : State) (rest : List HostMove) (ts : List Turn),
    s.host = .reset :: rest → s.sched = ⟨.host, false⟩ :: ts →
    ∃ t, step s = .next t ∧
      t.mu = { a := none, q := none, qm1 := none, m := none, y := none, st := .idle, k := none, n := 0, trace := [] } ∧
      t.du = { a := none, q := none, m := none, x := none, st := .idle, k := none, n := 0, trace := [] } ∧
      t.mu.busy = false ∧ t.mu.done = false ∧ t.mu.err = false ∧
      t.du.busy = false ∧ t.du.done = false ∧ t.du.err = false ∧
      t.host = rest ∧ t.sched = ts

/-- R141: a reset at the moment of any agent's move takes effect, no record is left, and the unit's step or the command of that
moment is dropped. -/
def Obligations.ResetWinsOverTheSameMoment : Prop :=
  ∀ (s : State) (a : Agent) (ts : List Turn), s.sched = ⟨a, true⟩ :: ts →
    ∃ t, step s = .next t ∧ t.mu.st = .idle ∧ t.du.st = .idle ∧ t.mu.trace = [] ∧ t.du.trace = [] ∧
      t.mu = State.reset.mu ∧ t.du = State.reset.du ∧ t.sched = ts ∧
      ∀ w rest, s.host = .issue w :: rest → a = .host → t.host = rest

/-! ### Primitives -/

/-- R68: two's-complement negation. -/
def Obligations.ComplementNegatesModulo : Prop :=
  ∀ (w : Nat) (b : BitVec w),
    (complement b).toNat = ((~~~b).toNat + 1) % 2 ^ w ∧ (complement b).toNat = (2 ^ w - b.toNat) % 2 ^ w

/-- Addition and subtraction modulo 2^w, the carry discarded (R70, R72). The last clause, subtraction as a difference modulo 2^w, is
the spec's inference: "The second form of the pseudocode is [derived: from rule R68 and rule R70]" (R72). -/
def Obligations.AddAndSubtractWrapModulo : Prop :=
  ∀ (w : Nat) (a b : BitVec w),
    (add a b).toNat = (a.toNat + b.toNat) % 2 ^ w ∧
    sub a b = add a (complement b) ∧
    ((sub a b).toNat : Int) = ((a.toNat : Int) - (b.toNat : Int)) % (2 ^ w : Int)

/-- The signed reading, by sign-bit test (R75). The second and third clauses are the spec's inference: "The second form of the
pseudocode and the corner case are [derived: from rule R68]" (R75). -/
def Obligations.SignedReadingOfABitString : Prop :=
  (∀ (w : Nat) (b : BitVec w),
    sval b = if b.msb = false then (b.toNat : Int) else -((complement b).toNat : Int)) ∧
  (∀ (w : Nat) (b : BitVec w), sval b = (b.toNat : Int) - (if b.msb then 1 else 0) * (2 ^ w : Int)) ∧
  (∀ w : Nat, 0 < w → sval (BitVec.intMin w) = -(2 ^ (w - 1) : Int))

/-- The laws of the primitives, all of them the spec's own inferences ("[derived: from rule R68]" and so on, in R69, R73, R78, R79
and R81): 0 and the most negative value are their own negation, subtracting the most negative value is adding it, and the
arithmetic facts that the laws of the two units use. -/
def Obligations.LawsOfThePrimitives : Prop :=
  (∀ w : Nat, complement (0#w) = 0#w) ∧
  (∀ w : Nat, complement (BitVec.intMin w) = BitVec.intMin w) ∧
  (∀ w : Nat, 0 < w → sval (complement (BitVec.intMin w)) = -(2 ^ (w - 1) : Int)) ∧
  (∀ (w : Nat) (a : BitVec w), sub a (BitVec.intMin w) = add a (BitVec.intMin w)) ∧
  (∀ (w : Nat) (b : BitVec w), complement (complement b) = b) ∧
  (∀ (w : Nat) (a b : BitVec w), sub (add a b) b = a) ∧
  (∀ (w : Nat) (a b : BitVec w), ((add a b).toNat : Int) ≡ a.toNat + b.toNat [ZMOD 2 ^ w]) ∧
  (∀ (w : Nat) (a b : BitVec w), ((sub a b).toNat : Int) ≡ a.toNat - b.toNat [ZMOD 2 ^ w]) ∧
  (∀ (w : Nat) (v : BitVec w), sval v ≡ v.toNat [ZMOD 2 ^ w]) ∧
  (∀ (a q : Nibble) (p : Bit),
    sval (((asr a q p).1 ++ (asr a q p).2.1 ++ (asr a q p).2.2 : BitVec 9)) = (sval (a ++ q ++ p : BitVec 9)).fdiv 2)

/-- The Booth shift and the division shift, as the rules' 9-bit words and as their fields (R74, R76). The fields are the spec's
inferences: "The field equalities in the last three pseudocode lines are [derived: from the first two lines and `00_scope.md` rule
R8]" (R74) and "The field equalities and the corner case are [derived: from the first two lines]" (R76). -/
def Obligations.ShiftFields : Prop :=
  (∀ (a q : Nibble) (p : Bit),
    let c : BitVec 9 := a ++ q ++ p
    let c' : BitVec 9 := c.extractLsb' 8 1 ++ c.extractLsb' 1 8
    asr a q p = (c'.extractLsb' 5 4, c'.extractLsb' 1 4, c'.extractLsb' 0 1) ∧
    asr a q p = (a.extractLsb' 3 1 ++ a.extractLsb' 1 3, a.extractLsb' 0 1 ++ q.extractLsb' 1 3, q.extractLsb' 0 1)) ∧
  (∀ (a : Acc) (q : Nibble),
    let c : BitVec 9 := a ++ q
    let c' : BitVec 9 := c.extractLsb' 0 8 ++ 0#1
    shl a q = (c'.extractLsb' 4 5, c'.extractLsb' 0 4) ∧
    shl a q = (a.extractLsb' 0 4 ++ q.extractLsb' 3 1, q.extractLsb' 0 3 ++ 0#1))

/-- The divisor is loaded as a non-negative value (R77, the spec's inference "[derived: from `00_scope.md` rule R9]"). -/
def Obligations.DivisorIsZeroExtended : Prop :=
  ∀ b : Nibble, zext5 b = 0#1 ++ b ∧ (zext5 b).toNat = b.toNat ∧ sval (zext5 b) = (b.toNat : Int)

/-! ### Encoding -/

/-- Each of the 512 words is a command, 256 of each unit; the DIV words with b = 0000 are valid, and are the divide-by-zero row
(R56, the spec's inference "[derived: from rule R51 and rule R52]"). No other number is a word. -/
def Obligations.EveryCommandWordIsValid : Prop :=
  (∀ n : Nat, n < 512 → ∃ i, decodeWord n = .ok i ∧ i.isCommand = true ∧ i.wellFormed = true ∧
    (i.unit = .mu ↔ n < 256) ∧ ((∃ x, i = .divZero x) ↔ 256 ≤ n ∧ n % 16 = 0)) ∧
  (∀ n : Nat, 512 ≤ n → decodeWord n = .error (.notNineBits n))

/-- R51, R52: the fields of `CMD9` and the unit its bit 8 selects. -/
def Obligations.CommandWordLayout : Prop :=
  ∀ w : Cmd,
    decode (.cmd9 w) = .ok
      (if w.getLsbD 8 = false then .mul (w.extractLsb' 4 4) (w.extractLsb' 0 4)
       else if w.extractLsb' 0 4 = 0#4 then .divZero (w.extractLsb' 4 4)
       else .div (w.extractLsb' 4 4) (w.extractLsb' 0 4)) ∧
    (CodeWord.cmd9 w).unit = if w.getLsbD 8 = false then .mu else .du

/-- Decoding and encoding agree, both ways: every well-formed instruction of the table is read back from its code word, and a
code word that selects an instruction is that instruction's. -/
def Obligations.DecodeAndEncodeAgree : Prop :=
  (∀ i : Instr, i.wellFormed = true → decode (encode i) = .ok i) ∧
  (∀ (c : CodeWord) (i : Instr), decode c = .ok i → i.wellFormed = true ∧ encode i = c)

/-- Words written out from R51, R63 and the tables R58, R59, R61 select the instructions they stand for. -/
def Obligations.WordsFromTheTablesDecode : Prop :=
  decodeWord 0x0D7 = .ok (.mul 0b1101#4 0b0111#4) ∧
  decodeWord 0x1B3 = .ok (.div 0b1011#4 0b0011#4) ∧
  decodeWord 0x150 = .ok (.divZero 0b0101#4) ∧
  decode (.muPair 0b10#2) = .ok .muSub ∧
  decode (.muPair 0b01#2) = .ok .muAdd ∧
  decode (.muPair 0b00#2) = .ok .muNop00 ∧
  decode (.muPair 0b11#2) = .ok .muNop11 ∧
  decode (.duAdjust 0#1) = .ok .duSub ∧
  decode (.duAdjust 1#1) = .ok .duAdd ∧
  decode (.duCorrect 1#1) = .ok .duRestore ∧
  decode (.duCorrect 0#1) = .error .noRestore

/-- R83: in `OP` the pair is `Q[0] ‖ Qm1` as the registers stand, and exactly one of the operation steps applies. -/
def Obligations.ControlPairSelectsTheOperation : Prop :=
  ∀ (m : Mu) (q : Nibble) (p : Bit), m.st = .op → m.q = some q → m.qm1 = some p →
    m.codeWord = .ok (.muPair (q.extractLsb' 0 1 ++ p)) ∧
    decode (.muPair (q.extractLsb' 0 1 ++ p)) = .ok
      (match q.getLsbD 0, p.getLsbD 0 with
       | true, false => .muSub
       | false, true => .muAdd
       | false, false => .muNop00
       | true, true => .muNop11)

/-- R59, R105, in part: in `ADJUST` the sign bit of `A` as it stands, after the shift, selects subtract or add. -/
def Obligations.ShiftedSignSelectsTheAdjust : Prop :=
  ∀ (d : Du) (a : Acc), d.st = .adjust → d.a = some a →
    d.codeWord = .ok (.duAdjust (a.extractLsb' 4 1)) ∧
    decode (.duAdjust (a.extractLsb' 4 1)) = .ok (if a.getLsbD 4 = false then .duSub else .duAdd)

/-! ### Commands -/

/-- R82: `MUL` from `IDLE` or `DONE` starts a run; the whole of MU is rewritten and nothing else changes. While MU is busy the
start is refused and not performed. -/
def Obligations.MulStartsABoothRun : Prop :=
  ∀ (x y : Nibble) (s : State),
    (s.mu.st = .idle ∨ s.mu.st = .done →
      exec (.mul x y) s = .next { s with mu :=
        { a := some 0#4, q := some y, qm1 := some 0#1, m := some x, y := some y, st := .op, k := some 0#3, n := 1
          trace := [{ idx := 0, kind := .init, a := 0#4, q := y, qm1 := 0#1, fin := none }] } }) ∧
    (s.mu.busy = true → exec (.mul x y) s = .next { s with refusalMark := true })

/-- R97: `DIV` with a non-zero divisor from `IDLE`, `DONE` or `ERROR` starts a run; the whole of DU is rewritten and nothing
else changes. -/
def Obligations.DivStartsADivisionRun : Prop :=
  ∀ (x d : Nibble) (s : State), d ≠ 0#4 → s.du.st = .idle ∨ s.du.st = .done ∨ s.du.st = .error →
    exec (.div x d) s = .next { s with du :=
      { a := some 0#5, q := some x, m := some (0#1 ++ d), x := some x, st := .shift, k := some 0#3, n := 1
        trace := [{ idx := 0, kind := .init, a := 0#5, q := x, msg := none, fin := none }] } }

/-- R98: `DIV` with divisor 0000 ends its run in `ERROR` at once, with the one error record; `DivideByZero` has code 1. -/
def Obligations.DivByZeroEndsInError : Prop :=
  ∀ (x : Nibble) (s : State), s.du.st = .idle ∨ s.du.st = .done ∨ s.du.st = .error →
    ∃ t, exec (.divZero x) s = .next t ∧
      t = { s with du :=
        { a := some 0#5, q := some x, m := some 0#5, x := some x, st := .error, k := some 0#3, n := 1
          trace := [{ idx := 0, kind := .error, a := 0#5, q := x, msg := some "Division by zero is undefined",
                      fin := none }] } } ∧
      t.du.err = true ∧ t.du.done = false ∧ t.du.busy = false ∧ t.du.exceptionCode = 1 ∧ t.du.result = none

/-- A command to a busy unit changes no unit, whatever its operands; the refusal mark is set, and no later step clears it (R149,
R122). That reset does not clear it either is the model's choice (assumption 3), and so is it that nothing else sets it
(assumption 2: the mark stands for a refused command alone). -/
def Obligations.CommandToBusyUnitIsRefusedForGood : Prop :=
  (∀ (x y : Nibble) (s : State),
    (s.mu.busy = true → exec (.mul x y) s = .next { s with refusalMark := true }) ∧
    (s.du.busy = true → exec (.div x y) s = .next { s with refusalMark := true }) ∧
    (s.du.busy = true → exec (.divZero x) s = .next { s with refusalMark := true })) ∧
  (∀ s t : State, step s = .next t → s.refusalMark = true → t.refusalMark = true) ∧
  (∀ s t : State, step s = .next t → t.refusalMark = true → s.refusalMark = true ∨
    ∃ w, s.host.head? = some (.issue w) ∧ (if w.getLsbD 8 = false then s.mu.busy else s.du.busy) = true)

/-- R55: issuing a command word, as the rule's own cascade. -/
def Obligations.IssuingACommandWord : Prop :=
  ∀ (s : State) (w : Cmd) (rest : List HostMove) (ts : List Turn),
    s.host = .issue w :: rest → s.sched = ⟨.host, false⟩ :: ts →
    step s = .next
      (if (if w.getLsbD 8 = false then s.mu.busy else s.du.busy) = true then
        { s with host := rest, sched := ts, refusalMark := true }
      else if w.getLsbD 8 = false then
        { s with host := rest, sched := ts, mu := Mu.start (w.extractLsb' 4 4) (w.extractLsb' 0 4) }
      else if w.extractLsb' 0 4 = 0#4 then
        { s with host := rest, sched := ts, du := Du.startZero (w.extractLsb' 4 4) }
      else
        { s with host := rest, sched := ts, du := Du.start (w.extractLsb' 4 4) (w.extractLsb' 0 4) })

/-! ### MU's micro-steps -/

/-- R84: `MU_SUB`. -/
def Obligations.BoothSubtractStep : Prop :=
  ∀ (s : State) (a q m : Nibble) (p : Bit),
    s.mu.st = .op → s.mu.a = some a → s.mu.q = some q → s.mu.qm1 = some p → s.mu.m = some m →
    q.getLsbD 0 = true → p = 0#1 →
    exec .muSub s = .next { s with mu := { s.mu with
      a := some (a - m), st := .shift, n := s.mu.n + 1
      trace := s.mu.trace ++ [{ idx := s.mu.n, kind := .sub, a := a - m, q := q, qm1 := p, fin := none }] } }

/-- R85: `MU_ADD`. -/
def Obligations.BoothAddStep : Prop :=
  ∀ (s : State) (a q m : Nibble) (p : Bit),
    s.mu.st = .op → s.mu.a = some a → s.mu.q = some q → s.mu.qm1 = some p → s.mu.m = some m →
    q.getLsbD 0 = false → p = 1#1 →
    exec .muAdd s = .next { s with mu := { s.mu with
      a := some (a + m), st := .shift, n := s.mu.n + 1
      trace := s.mu.trace ++ [{ idx := s.mu.n, kind := .add, a := a + m, q := q, qm1 := p, fin := none }] } }

/-- R86: `MU_NOP` on pairs 00 and 11: the record and nothing else. -/
def Obligations.BoothNoOperationSteps : Prop :=
  ∀ (s : State) (a q : Nibble) (p : Bit),
    s.mu.st = .op → s.mu.a = some a → s.mu.q = some q → s.mu.qm1 = some p →
    (q.getLsbD 0 = false → p = 0#1 →
      exec .muNop00 s = .next { s with mu := { s.mu with
        st := .shift, n := s.mu.n + 1
        trace := s.mu.trace ++ [{ idx := s.mu.n, kind := .nop, a := a, q := q, qm1 := p, fin := none }] } }) ∧
    (q.getLsbD 0 = true → p = 1#1 →
      exec .muNop11 s = .next { s with mu := { s.mu with
        st := .shift, n := s.mu.n + 1
        trace := s.mu.trace ++ [{ idx := s.mu.n, kind := .nop, a := a, q := q, qm1 := p, fin := none }] } })

/-- R87: `MU_ASR`. The counter is a 3-bit register (R23). -/
def Obligations.BoothShiftStep : Prop :=
  ∀ (s : State) (a q : Nibble) (p : Bit) (k : Counter),
    s.mu.st = .shift → s.mu.a = some a → s.mu.q = some q → s.mu.qm1 = some p → s.mu.k = some k →
    exec .muAsr s = .next { s with mu := { s.mu with
      a := some (a.sshiftRight 1)
      q := some (a.extractLsb' 0 1 ++ q.extractLsb' 1 3)
      qm1 := some (q.extractLsb' 0 1)
      k := some (k + 1#3)
      st := if k + 1#3 = 4#3 then .final else .op
      n := s.mu.n + 1
      trace := s.mu.trace ++ [{ idx := s.mu.n, kind := .asr, a := a.sshiftRight 1,
                                q := a.extractLsb' 0 1 ++ q.extractLsb' 1 3, qm1 := q.extractLsb' 0 1, fin := none }] } }

/-- R88: `MU_FINAL`. -/
def Obligations.BoothFinalStep : Prop :=
  ∀ (s : State) (a q m y : Nibble) (p : Bit),
    s.mu.st = .final → s.mu.a = some a → s.mu.q = some q → s.mu.qm1 = some p → s.mu.m = some m → s.mu.y = some y →
    exec .muFinal s = .next { s with mu := { s.mu with
      st := .done, n := s.mu.n + 1
      trace := s.mu.trace ++ [{ idx := s.mu.n, kind := .final, a := a, q := q, qm1 := p
                                fin := some { p := a ++ q, pDec := (a ++ q : BitVec 8).toInt, mDec := m.toInt,
                                              yDec := y.toInt } }] } }

/-! ### DU's micro-steps -/

/-- R100: `DU_SHL`. -/
def Obligations.DivisionShiftStep : Prop :=
  ∀ (s : State) (a : Acc) (q : Nibble), s.du.st = .shift → s.du.a = some a → s.du.q = some q →
    exec .duShl s = .next { s with du := { s.du with
      a := some (a.extractLsb' 0 4 ++ q.extractLsb' 3 1), q := some (q <<< 1), st := .adjust, n := s.du.n + 1
      trace := s.du.trace ++ [{ idx := s.du.n, kind := .shl, a := a.extractLsb' 0 4 ++ q.extractLsb' 3 1, q := q <<< 1,
                                msg := none, fin := none }] } }

/-- R101: `DU_SUB`. -/
def Obligations.AdjustSubtractStep : Prop :=
  ∀ (s : State) (a m : Acc) (q : Nibble),
    s.du.st = .adjust → s.du.a = some a → s.du.q = some q → s.du.m = some m → a.getLsbD 4 = false →
    exec .duSub s = .next { s with du := { s.du with
      a := some (a - m), st := .setq0, n := s.du.n + 1
      trace := s.du.trace ++ [{ idx := s.du.n, kind := .sub, a := a - m, q := q, msg := none, fin := none }] } }

/-- R102: `DU_ADD`. -/
def Obligations.AdjustAddStep : Prop :=
  ∀ (s : State) (a m : Acc) (q : Nibble),
    s.du.st = .adjust → s.du.a = some a → s.du.q = some q → s.du.m = some m → a.getLsbD 4 = true →
    exec .duAdd s = .next { s with du := { s.du with
      a := some (a + m), st := .setq0, n := s.du.n + 1
      trace := s.du.trace ++ [{ idx := s.du.n, kind := .add, a := a + m, q := q, msg := none, fin := none }] } }

/-- R104: `DU_SETQ0`. The counter is a 3-bit register (R23). Where the quotient bit is 0 and `Q[0]` was 0, `Q` is unchanged. -/
def Obligations.SetQuotientBitStep : Prop :=
  ∀ (s : State) (a : Acc) (q : Nibble) (k : Counter),
    s.du.st = .setq0 → s.du.a = some a → s.du.q = some q → s.du.k = some k →
    exec .duSetq0 s = .next { s with du := { s.du with
      q := some (q.extractLsb' 1 3 ++ ~~~(a.extractLsb' 4 1))
      k := some (k + 1#3)
      st := if k + 1#3 < 4#3 then .shift else if a.getLsbD 4 = true then .restore else .final
      n := s.du.n + 1
      trace := s.du.trace ++ [{ idx := s.du.n, kind := .setq0, a := a, q := q.extractLsb' 1 3 ++ ~~~(a.extractLsb' 4 1),
                                msg := none, fin := none }] } } ∧
    (a.getLsbD 4 = true → q.getLsbD 0 = false → q.extractLsb' 1 3 ++ ~~~(a.extractLsb' 4 1) = q)

/-- R106, its transfer: `DU_RESTORE`. (That the restored `A` is non-negative in every run is `DivisionRunRecords`.) -/
def Obligations.RestoreStep : Prop :=
  ∀ (s : State) (a m : Acc) (q : Nibble), s.du.st = .restore → s.du.a = some a → s.du.q = some q → s.du.m = some m →
    exec .duRestore s = .next { s with du := { s.du with
      a := some (a + m), st := .final, n := s.du.n + 1
      trace := s.du.trace ++ [{ idx := s.du.n, kind := .restore, a := a + m, q := q, msg := none, fin := none }] } }

/-- R107, its transfer: `DU_FINAL`. (The ranges of the reported values in a run are those of `DivisionRunRecords`.) -/
def Obligations.DivisionFinalStep : Prop :=
  ∀ (s : State) (a m : Acc) (q x : Nibble),
    s.du.st = .final → s.du.a = some a → s.du.q = some q → s.du.m = some m → s.du.x = some x →
    exec .duFinal s = .next { s with du := { s.du with
      st := .done, n := s.du.n + 1
      trace := s.du.trace ++ [{ idx := s.du.n, kind := .final, a := a, q := q, msg := none
                                fin := some { xDec := x.toInt, mDec := m.toInt, qDec := q.toInt, rDec := a.toInt } }] } }

/-! ### Where micro-steps stop, and what they leave alone -/

/-- The model's choice (assumption 9): a micro-step asked for where no row of R90 or R109 has it is refused by name. -/
def Obligations.MicroStepOutsideItsStateIsRefused : Prop :=
  ∀ s : State,
    (s.mu.st ≠ .op → exec .muSub s = .refused (.stepNotEnabled .muSub) ∧ exec .muAdd s = .refused (.stepNotEnabled .muAdd) ∧
      exec .muNop00 s = .refused (.stepNotEnabled .muNop00) ∧ exec .muNop11 s = .refused (.stepNotEnabled .muNop11)) ∧
    (s.mu.st ≠ .shift → exec .muAsr s = .refused (.stepNotEnabled .muAsr)) ∧
    (s.mu.st ≠ .final → exec .muFinal s = .refused (.stepNotEnabled .muFinal)) ∧
    (s.du.st ≠ .shift → exec .duShl s = .refused (.stepNotEnabled .duShl)) ∧
    (s.du.st ≠ .adjust → exec .duSub s = .refused (.stepNotEnabled .duSub) ∧ exec .duAdd s = .refused (.stepNotEnabled .duAdd)) ∧
    (s.du.st ≠ .setq0 → exec .duSetq0 s = .refused (.stepNotEnabled .duSetq0)) ∧
    (s.du.st ≠ .restore → exec .duRestore s = .refused (.stepNotEnabled .duRestore)) ∧
    (s.du.st ≠ .final → exec .duFinal s = .refused (.stepNotEnabled .duFinal)) ∧
    (∀ (q : Nibble) (p : Bit), s.mu.st = .op → s.mu.q = some q → s.mu.qm1 = some p →
      ∀ i ∈ [Instr.muSub, .muAdd, .muNop00, .muNop11], encode i ≠ .muPair (q.extractLsb' 0 1 ++ p) →
        exec i s = .refused (.stepNotEnabled i)) ∧
    (∀ a : Acc, s.du.st = .adjust → s.du.a = some a →
      ∀ i ∈ [Instr.duSub, .duAdd], encode i ≠ .duAdjust (a.extractLsb' 4 1) → exec i s = .refused (.stepNotEnabled i))

/-- R20, R122, in part: a unit's move that has to read a register holding ⊥ faults, whichever register it is; it picks no
value. -/
def Obligations.ReadingUnwrittenRegisterFaults : Prop :=
  ∀ s : State,
    (s.mu.st = .op → s.mu.q = none ∨ s.mu.qm1 = none ∨ s.mu.a = none → ∃ r, runAgent .mu s = .fault (.readUnwritten r)) ∧
    (∀ (q : Nibble) (p : Bit), s.mu.st = .op → s.mu.q = some q → s.mu.qm1 = some p → q.extractLsb' 0 1 ≠ p → s.mu.m = none →
      ∃ r, runAgent .mu s = .fault (.readUnwritten r)) ∧
    (s.mu.st = .shift → s.mu.a = none ∨ s.mu.q = none ∨ s.mu.qm1 = none ∨ s.mu.k = none →
      ∃ r, runAgent .mu s = .fault (.readUnwritten r)) ∧
    (s.mu.st = .final → s.mu.a = none ∨ s.mu.q = none ∨ s.mu.qm1 = none ∨ s.mu.m = none ∨ s.mu.y = none →
      ∃ r, runAgent .mu s = .fault (.readUnwritten r)) ∧
    (s.du.st = .shift → s.du.a = none ∨ s.du.q = none → ∃ r, runAgent .du s = .fault (.readUnwritten r)) ∧
    (s.du.st = .adjust → s.du.a = none ∨ s.du.m = none ∨ s.du.q = none → ∃ r, runAgent .du s = .fault (.readUnwritten r)) ∧
    (s.du.st = .setq0 → s.du.a = none ∨ s.du.q = none ∨ s.du.k = none → ∃ r, runAgent .du s = .fault (.readUnwritten r)) ∧
    (s.du.st = .restore → s.du.a = none ∨ s.du.m = none ∨ s.du.q = none → ∃ r, runAgent .du s = .fault (.readUnwritten r)) ∧
    (s.du.st = .final → s.du.a = none ∨ s.du.q = none ∨ s.du.m = none ∨ s.du.x = none →
      ∃ r, runAgent .du s = .fault (.readUnwritten r))

/-- R89: a micro-step of MU writes only what its rule names, plus `n` and the trace; neither it nor a start step reads or writes
DU. -/
def Obligations.BoothStepFrame : Prop :=
  (∀ (i : Instr) (s t : State), i.unit = .mu → i.isCommand = false → exec i s = .next t →
    t = { s with mu := t.mu } ∧
    t.mu.m = s.mu.m ∧ t.mu.y = s.mu.y ∧
    (i ≠ .muAsr → t.mu.q = s.mu.q ∧ t.mu.qm1 = s.mu.qm1 ∧ t.mu.k = s.mu.k) ∧
    (i = .muNop00 ∨ i = .muNop11 ∨ i = .muFinal → t.mu.a = s.mu.a) ∧
    t.mu.n = s.mu.n + 1 ∧ (∃ r, t.mu.trace = s.mu.trace ++ [r] ∧ r.idx = s.mu.n)) ∧
  (∀ (i : Instr) (s t : State), i.unit = .mu → exec i s = .next t →
    t.du = s.du ∧ ∀ d : Du, exec i { s with du := d } = .next { t with du := d })

/-- R110: a micro-step of DU writes only what its rule names, plus `n` and the trace; neither it nor a start step reads or writes
MU. -/
def Obligations.DivisionStepFrame : Prop :=
  (∀ (i : Instr) (s t : State), i.unit = .du → i.isCommand = false → exec i s = .next t →
    t = { s with du := t.du } ∧
    t.du.m = s.du.m ∧ t.du.x = s.du.x ∧
    (i ≠ .duShl → i ≠ .duSetq0 → t.du.q = s.du.q) ∧
    (i ≠ .duSetq0 → t.du.k = s.du.k) ∧
    (i = .duSetq0 ∨ i = .duFinal → t.du.a = s.du.a) ∧
    t.du.n = s.du.n + 1 ∧ (∃ r, t.du.trace = s.du.trace ++ [r] ∧ r.idx = s.du.n)) ∧
  (∀ (i : Instr) (s t : State), i.unit = .du → exec i s = .next t →
    t.mu = s.mu ∧ ∀ m : Mu, exec i { s with mu := m } = .next { t with mu := m })

/-! ### The step -/

/-- A step runs the instruction that the moving agent's code word selects: the moment is used up, and nothing else is added
around `exec`, but for the host's move that a command was. The last two clauses rest on assumption 4, the model's choice (DESIGN
CHOICE): past the schedule's end a lone busy unit moves. -/
def Obligations.StepRunsTheSelectedInstruction : Prop :=
  (∀ (s : State) (ts : List Turn) (c : CodeWord) (i : Instr),
    s.sched = ⟨.mu, false⟩ :: ts → s.mu.codeWord = .ok c → decode c = .ok i → step s = exec i { s with sched := ts }) ∧
  (∀ (s : State) (ts : List Turn) (c : CodeWord) (i : Instr),
    s.sched = ⟨.du, false⟩ :: ts → s.du.codeWord = .ok c → decode c = .ok i → step s = exec i { s with sched := ts }) ∧
  (∀ (s : State) (ts : List Turn) (w : Cmd) (rest : List HostMove) (i : Instr),
    s.sched = ⟨.host, false⟩ :: ts → s.host = .issue w :: rest → decode (.cmd9 w) = .ok i →
    step s = exec i { s with sched := ts, host := rest }) ∧
  (∀ (s : State) (c : CodeWord) (i : Instr),
    s.sched = [] → s.host = [] → s.mu.busy = true → s.du.busy = false → s.mu.codeWord = .ok c → decode c = .ok i →
    step s = exec i s) ∧
  (∀ (s : State) (c : CodeWord) (i : Instr),
    s.sched = [] → s.host = [] → s.mu.busy = false → s.du.busy = true → s.du.codeWord = .ok c → decode c = .ok i →
    step s = exec i s)

/-- R32: only a busy unit takes steps; at a moment of a quiescent unit nothing changes but that the moment has passed. -/
def Obligations.QuiescentUnitTakesNoStep : Prop :=
  (∀ s : State, (s.mu.st = .idle ∨ s.mu.st = .done → s.mu.busy = false) ∧
    (s.du.st = .idle ∨ s.du.st = .done ∨ s.du.st = .error → s.du.busy = false)) ∧
  (∀ (s : State) (ts : List Turn), s.sched = ⟨.mu, false⟩ :: ts → s.mu.busy = false →
    step s = .next { s with sched := ts }) ∧
  (∀ (s : State) (ts : List Turn), s.sched = ⟨.du, false⟩ :: ts → s.du.busy = false →
    step s = .next { s with sched := ts })

/-- R90: MU's transition table, in every state that a run reaches: the command row, the refused commands, the micro-steps with
their record kinds, and the quiescent row. -/
def Obligations.BoothTransitionTable : Prop :=
  (∀ (s : State) (x y : Nibble), s.mu.st = .idle ∨ s.mu.st = .done →
    ∃ t, exec (.mul x y) s = .next t ∧ t.mu.st = .op ∧ t.mu.trace.map MuRecord.kind = [.init]) ∧
  (∀ (s : State) (x y : Nibble), s.mu.st = .op ∨ s.mu.st = .shift ∨ s.mu.st = .final →
    exec (.mul x y) s = .next { s with refusalMark := true }) ∧
  (∀ (s : State) (ts : List Turn), s.Inv → s.sched = ⟨.mu, false⟩ :: ts →
    match boothTable (controlPair (s.mu.q.getD 0#4) (s.mu.qm1.getD 0#1)) s.mu.iteration s.mu.st with
    | none => step s = .next { s with sched := ts }
    | some (kind, st) => ∃ t r, step s = .next t ∧ t.mu.st = st ∧ t.mu.trace = s.mu.trace ++ [r] ∧ r.kind = kind)

/-- R109: DU's transition table, in every state that a run reaches. -/
def Obligations.DivisionTransitionTable : Prop :=
  (∀ (s : State) (x d : Nibble), s.du.st = .idle ∨ s.du.st = .done ∨ s.du.st = .error →
    (∃ t, exec (.divZero x) s = .next t ∧ t.du.st = .error ∧ t.du.trace.map DuRecord.kind = [.error]) ∧
    (d ≠ 0#4 → ∃ t, exec (.div x d) s = .next t ∧ t.du.st = .shift ∧ t.du.trace.map DuRecord.kind = [.init])) ∧
  (∀ (s : State) (x d : Nibble),
    s.du.st = .shift ∨ s.du.st = .adjust ∨ s.du.st = .setq0 ∨ s.du.st = .restore ∨ s.du.st = .final →
    exec (.div x d) s = .next { s with refusalMark := true } ∧ exec (.divZero x) s = .next { s with refusalMark := true }) ∧
  (∀ (s : State) (ts : List Turn), s.Inv → s.sched = ⟨.du, false⟩ :: ts →
    match divisionTable ((s.du.a.getD 0#5).getLsbD 4) s.du.iteration s.du.st with
    | none => step s = .next { s with sched := ts }
    | some (kind, st) => ∃ t r, step s = .next t ∧ t.du.st = st ∧ t.du.trace = s.du.trace ++ [r] ∧ r.kind = kind)

/-! ### Invariants -/

/-- The reset state meets the invariant. -/
def Obligations.ResetStateIsWellFormed : Prop := State.reset.Inv

/-- Every step keeps the invariant, from every state that meets it, whatever agent moves and whatever the host does: in each
sequencer state the registers, the iteration and record counters and the trace are as the tables R90 and R109 leave them. -/
def Obligations.EveryStepKeepsTheInvariant : Prop :=
  ∀ s t : State, s.Inv → step s = .next t → t.Inv

/-- No step reads a register before the start step of its run writes it (R20, the spec's inference "[derived: from
`41_booth.md` rule R82, …]"). From a state that meets the invariant the machine
never stops, but for a result the host takes where there is none (R122); it never refuses. -/
def Obligations.NoStepReadsAnUnwrittenRegister : Prop :=
  ∀ s : State, s.Inv → (∃ t, step s = .next t) ∨ (∃ u, s.host.head? = some (.takeResult u) ∧ step s = .fault (.noResult u))

/-- R19: the operand registers and latches change only with their unit's start step or with reset. -/
def Obligations.OperandRegistersHoldThroughARun : Prop :=
  ∀ s t : State, step s = .next t →
    (t.mu.m ≠ s.mu.m ∨ t.mu.y ≠ s.mu.y → t.mu = Mu.blank ∨ (s.mu.busy = false ∧ ∃ x y, t.mu = Mu.start x y)) ∧
    (t.du.m ≠ s.du.m ∨ t.du.x ≠ s.du.x → t.du = Du.blank ∨
      (s.du.busy = false ∧ ∃ x, t.du = Du.startZero x ∨ ∃ d, t.du = Du.start x d))

/-- R46 and R13, in part: in one step a trace stays, gains one record numbered by the record counter, is cleared by reset, or
is replaced by a start step of its quiescent unit. No record ever changes. -/
def Obligations.TraceOnlyGrowsWithinARun : Prop :=
  ∀ s t : State, step s = .next t →
    (t.mu.trace = s.mu.trace ∨ (s.mu.busy = true ∧ ∃ r, t.mu.trace = s.mu.trace ++ [r] ∧ r.idx = s.mu.n) ∨
      t.mu = Mu.blank ∨ (s.mu.busy = false ∧ ∃ x y, t.mu = Mu.start x y)) ∧
    (t.du.trace = s.du.trace ∨ (s.du.busy = true ∧ ∃ r, t.du.trace = s.du.trace ++ [r] ∧ r.idx = s.du.n) ∨
      t.du = Du.blank ∨ (s.du.busy = false ∧ ∃ x, t.du = Du.startZero x ∨ ∃ d, t.du = Du.start x d))

/-- R108: `ERROR` is terminal for its run: its trace is the one error record, a host that takes its result faults, and only a
new DIV command or reset leaves it. -/
def Obligations.ErrorIsTerminalForItsRun : Prop :=
  ∀ s : State, s.Inv → s.du.st = .error →
    (∃ x, s.du.trace = [{ idx := 0, kind := .error, a := 0#5, q := x, msg := some "Division by zero is undefined",
                          fin := none }]) ∧
    (∀ rest ts, s.host = .takeResult .du :: rest → s.sched = ⟨.host, false⟩ :: ts → step s = .fault (.noResult .du)) ∧
    (∀ ts, s.sched = ⟨.du, false⟩ :: ts → step s = .next { s with sched := ts }) ∧
    (∀ t, step s = .next t → t.du = s.du ∨ t.du = Du.blank ∨
      ((∃ w, s.host.head? = some (.issue w) ∧ w.getLsbD 8 = true) ∧ ∃ x, t.du = Du.startZero x ∨ ∃ d, t.du = Du.start x d))

/-! ### The host's other moves -/

/-- The status levels of each unit (R30). Two clauses are the spec's inferences: that all are 0 after reset, "[derived: from rule R21,
rule R22 and the reset values rule R33]" (R30), and that "`done` and `err` are never both 1 [derived: from rule R30]" (R31). -/
def Obligations.StatusLevels : Prop :=
  (∀ m : Mu, (m.busy = true ↔ m.st ≠ .idle ∧ m.st ≠ .done) ∧ (m.done = true ↔ m.st = .done) ∧ m.err = false) ∧
  (∀ d : Du, (d.busy = true ↔ d.st ≠ .idle ∧ d.st ≠ .done ∧ d.st ≠ .error) ∧ (d.done = true ↔ d.st = .done) ∧
    (d.err = true ↔ d.st = .error) ∧ ¬(d.done = true ∧ d.err = true)) ∧
  statusOf .mu State.reset = .status false false false ∧ statusOf .du State.reset = .status false false false

/-- R44, R135, R136, in part: reading status or the trace returns the unit's levels or the records so far and changes no unit.
`wait(U)` has no effect and is made only when U is not busy; until then it stays the host's next move. -/
def Obligations.ReadsAndWaitsChangeNoUnit : Prop :=
  ∀ (s : State) (rest : List HostMove) (ts : List Turn), s.sched = ⟨.host, false⟩ :: ts →
    (s.host = .readStatus .mu :: rest → step s = .next
      { s with host := rest, sched := ts, reply := some (.status s.mu.busy s.mu.done s.mu.err) }) ∧
    (s.host = .readStatus .du :: rest → step s = .next
      { s with host := rest, sched := ts, reply := some (.status s.du.busy s.du.done s.du.err) }) ∧
    (s.host = .readTrace .mu :: rest → step s = .next { s with host := rest, sched := ts, reply := some (.muTrace s.mu.trace) }) ∧
    (s.host = .readTrace .du :: rest → step s = .next { s with host := rest, sched := ts, reply := some (.duTrace s.du.trace) }) ∧
    (∀ u, s.host = .wait u :: rest →
      (s.busy u = false → step s = .next { s with host := rest, sched := ts }) ∧
      (s.busy u = true → step s = .next { s with sched := ts }))

/-- R148: a result is taken only from a finished run's final record; earlier, or after the error outcome, it is `NoResult`. -/
def Obligations.ResultIsTakenFromAFinishedRun : Prop :=
  ∀ (s : State) (rest : List HostMove) (ts : List Turn), s.Inv → s.sched = ⟨.host, false⟩ :: ts →
    (s.host = .takeResult .mu :: rest →
      (s.mu.st = .done → ∃ a q m y, s.mu.a = some a ∧ s.mu.q = some q ∧ s.mu.m = some m ∧ s.mu.y = some y ∧
        step s = .next { s with host := rest, sched := ts, reply := some (.product
          { p := a ++ q, pDec := (a ++ q : BitVec 8).toInt, mDec := m.toInt, yDec := y.toInt }) }) ∧
      (s.mu.st ≠ .done → step s = .fault (.noResult .mu))) ∧
    (s.host = .takeResult .du :: rest →
      (s.du.st = .done → ∃ a q m x, s.du.a = some a ∧ s.du.q = some q ∧ s.du.m = some m ∧ s.du.x = some x ∧
        step s = .next { s with host := rest, sched := ts, reply := some (.quotient q a
          { xDec := x.toInt, mDec := m.toInt, qDec := q.toInt, rDec := a.toInt }) }) ∧
      (s.du.st ≠ .done → step s = .fault (.noResult .du)))

/-! ### Whole runs, under every interleaving of the units -/

/-- The product law (R94, the spec's inference "[derived: by evaluating rules R82 to R88 for all 256 operand pairs]"), for
every operand pair, whatever the state before and however the units' steps interleave. -/
def Obligations.BoothProductLaw : Prop :=
  ∀ (s : State) (x y : Nibble) (l ts : List Turn),
    s.Inv → s.mu.busy = false → s.IssuesThen (0#1 ++ x ++ y) l ts → 9 ≤ turnsOf .mu l →
    ∃ t a q f, run (l.length + 1) s = .next t ∧ t.sched = ts ∧ t.mu.st = .done ∧ t.mu.a = some a ∧ t.mu.q = some q ∧
      t.mu.result = some (.product f) ∧ f.p = a ++ q ∧ f.pDec = f.p.toInt ∧ f.mDec = x.toInt ∧ f.yDec = y.toInt ∧
      (x ≠ 0b1000#4 → (f.p.toNat : Int) = (x.toInt * y.toInt) % 256 ∧ f.p.toInt = x.toInt * y.toInt) ∧
      (x = 0b1000#4 → (f.p.toNat : Int) = (8 * y.toInt) % 256 ∧ f.p.toInt = -(x.toInt * y.toInt) ∧
        (y ≠ 0#4 → f.p.toInt ≠ x.toInt * y.toInt))

/-- Every MU run emits 10 records in order; the operation kinds recode the multiplier alone (R92, R93, the spec's inferences
"[derived: from rule R90]" and "[derived: from `40_primitives.md` rule R74 … and rule R83]"). -/
def Obligations.BoothRunRecords : Prop :=
  ∀ (s : State) (x y : Nibble) (l ts : List Turn),
    s.Inv → s.mu.busy = false → s.IssuesThen (0#1 ++ x ++ y) l ts → 9 ≤ turnsOf .mu l →
    ∃ t, run (l.length + 1) s = .next t ∧ t.mu.st = .done ∧
      t.mu.trace.map MuRecord.idx = [0, 1, 2, 3, 4, 5, 6, 7, 8, 9] ∧
      t.mu.trace.map MuRecord.kind =
        [.init, recodedKind y 0, .asr, recodedKind y 1, .asr, recodedKind y 2, .asr, recodedKind y 3, .asr, .final]

/-- Floor division and modulus for the divisors 1 to 8 and every dividend (R111, the spec's inference "[derived: by evaluating
rules R97 to R107 for all 128 such pairs]"). -/
def Obligations.DivisionLawForDivisorsUpToEight : Prop :=
  ∀ (s : State) (x d : Nibble) (l ts : List Turn),
    s.Inv → s.du.busy = false → 1 ≤ d.toNat → d.toNat ≤ 8 → s.IssuesThen (1#1 ++ x ++ d) l ts → 14 ≤ turnsOf .du l →
    ∃ t a q, run (l.length + 1) s = .next t ∧ t.sched = ts ∧ t.du.st = .done ∧ t.du.a = some a ∧ t.du.q = some q ∧
      q.toNat = x.toNat / d.toNat ∧ a.toNat = x.toNat % d.toNat ∧ a.getLsbD 4 = false

/-- (R112, the spec's inference "[derived: by evaluating rules R97 to R107]".) For the divisors 9 to 15 the rules' result is
the quotient and remainder exactly when the divisor is 9 and the dividend 8 or more; in every other case not even `x = q·d +
r` holds. The final `A` is non-negative always. -/
def Obligations.DivisionByNineToFifteen : Prop :=
  ∀ (s : State) (x d : Nibble) (l ts : List Turn),
    s.Inv → s.du.busy = false → 9 ≤ d.toNat → s.IssuesThen (1#1 ++ x ++ d) l ts → 14 ≤ turnsOf .du l →
    ∃ t a q, run (l.length + 1) s = .next t ∧ t.sched = ts ∧ t.du.st = .done ∧ t.du.a = some a ∧ t.du.q = some q ∧
      (d.toNat = 9 ∧ 8 ≤ x.toNat → q.toNat = x.toNat / d.toNat ∧ a.toNat = x.toNat % d.toNat) ∧
      (¬(d.toNat = 9 ∧ 8 ≤ x.toNat) → x.toNat ≠ q.toNat * d.toNat + a.toNat) ∧
      a.getLsbD 4 = false

/-- (R117 and the ranges in R106 and R107, the spec's inferences "[derived: from rule R109]" and "[derived: by evaluating
…]".) The records of a division run, with at most one restore, and the final `A` in 0..14 and `M_dec` in 1..15. -/
def Obligations.DivisionRunRecords : Prop :=
  ∀ (s : State) (x d : Nibble) (l ts : List Turn),
    s.Inv → s.du.busy = false → d ≠ 0#4 → s.IssuesThen (1#1 ++ x ++ d) l ts → 14 ≤ turnsOf .du l →
    ∃ t a q f, ∃ j0 j1 j2 j3 : DuKind, ∃ r : List DuKind,
      run (l.length + 1) s = .next t ∧ t.du.st = .done ∧ t.du.a = some a ∧ a.toNat ≤ 14 ∧
      t.du.result = some (.quotient q a f) ∧ f.rDec = (a.toNat : Int) ∧ f.mDec = (d.toNat : Int) ∧
      (∀ j ∈ [j0, j1, j2, j3], j = .sub ∨ j = .add) ∧ (r = [] ∨ r = [.restore]) ∧
      t.du.trace.map DuRecord.kind =
        [.init, .shl, j0, .setq0, .shl, j1, .setq0, .shl, j2, .setq0, .shl, j3, .setq0] ++ r ++ [.final] ∧
      t.du.trace.map DuRecord.idx = List.range (14 + r.length)

/-- A run with divisor 0000 emits one error record and takes no further step, whatever moments the units get (R115, the spec's
inference "[derived: from rule R98 and rule R108]"). -/
def Obligations.DivideByZeroRunHasOneRecord : Prop :=
  ∀ (s : State) (x : Nibble) (l ts : List Turn),
    s.Inv → s.du.busy = false → s.IssuesThen (1#1 ++ x ++ 0#4) l ts →
    ∃ t, run (l.length + 1) s = .next t ∧ t.sched = ts ∧ t.du.st = .error ∧ t.du.n = 1 ∧
      t.du.trace = [{ idx := 0, kind := .error, a := 0#5, q := x, msg := some "Division by zero is undefined", fin := none }]

/-- (R152, the spec's inference "[derived: from `41_booth.md` rule R90 and `42_division.md` rule R109]".) From every state
that meets the invariant a busy unit ends its run within 15 moments of its own, whatever moments the other unit gets. -/
def Obligations.EveryRunEndsWithinFifteenSteps : Prop :=
  ∀ (s : State) (u : UnitName) (l ts : List Turn),
    s.Inv → s.busy u = true → s.sched = l ++ ts → UnitTurns l → 15 ≤ turnsOf (unitAgent u) l →
    ∃ t, run l.length s = .next t ∧ t.sched = ts ∧
      (u = .mu → t.mu.st = .done) ∧ (u = .du → t.du.st = .done)

/-- Past the end of the schedule, with no more moves of the host, both units come to rest, whatever the free choice of the next
agent is (assumption 4 is the model's choice; the statement holds for every value of the free choice). -/
def Obligations.FreeScheduleComesToRest : Prop :=
  ∀ s : State, s.Inv → s.sched = [] → s.host = [] → ∃ k t, k ≤ 23 ∧ run k s = .next t ∧ t.Quiescent ∧ step t = .next t

/-- The end state does not depend on how the units' steps interleave, only on how many steps each had (R139, the spec's inference
"[derived: from `00_scope.md` rule R12 and rule R132]"). -/
def Obligations.EndStateIsIndependentOfInterleaving : Prop :=
  ∀ (s : State) (l₁ l₂ ts : List Turn), s.Inv → UnitTurns l₁ → UnitTurns l₂ →
    turnsOf .mu l₁ = turnsOf .mu l₂ → turnsOf .du l₁ = turnsOf .du l₂ →
    ∃ t, run l₁.length { s with sched := l₁ ++ ts } = .next t ∧ run l₂.length { s with sched := l₂ ++ ts } = .next t

/-! ### The boundary in front of the block, and the texts behind it -/

/-- R36, R37, in part: the source's label of each kind whose label it gives; the other four labels are the free texts of D12
(assumption 13). -/
def Obligations.RecordLabelsAreTheSourceTexts : Prop :=
  MuKind.sub.label = "A = A − M" ∧ MuKind.add.label = "A = A + M" ∧ MuKind.nop.label = "No Operation" ∧
  MuKind.asr.label = "Arithmetic Shift Right" ∧ MuKind.init.label = Config.labelText .muInit ∧
  MuKind.final.label = Config.labelText .muFinal ∧
  DuKind.error.label = "Division by zero is undefined" ∧ DuKind.shl.label = "Shift Left" ∧ DuKind.sub.label = "A − M" ∧
  DuKind.add.label = "A + M" ∧ DuKind.setq0.label = "Set Q0" ∧ DuKind.restore.label = "Restore A" ∧
  DuKind.init.label = Config.labelText .duInit ∧ DuKind.final.label = Config.labelText .duFinal

/-- R63, in part: the spelling of every command word is read back as that word; so are the directives. That `WAIT ALL` stands for
two waits is the model's reading (assumption 15). -/
def Obligations.CommandTextIsReadBack : Prop :=
  (∀ w : Cmd, parseLine (commandText w) = .ok [.issue w]) ∧
  parseLine "RESET".toList = .ok [.reset] ∧
  parseLine "WAIT MU".toList = .ok [.wait .mu] ∧
  parseLine "WAIT DU".toList = .ok [.wait .du] ∧
  parseLine "WAIT ALL ; both".toList = .ok [.wait .mu, .wait .du]

/-- R54, in part: an operand that is not exactly four characters of 0 and 1 is refused; nothing is padded or truncated. That a wrong
length is reported as such even where a character is wrong too is the model's choice (assumption 15, DESIGN CHOICE). -/
def Obligations.MalformedOperandIsRefused : Prop :=
  ∀ (index : Nat) (cs : List Char),
    ((∃ b, parseOperand index cs = .ok b) ↔ cs.length = 4 ∧ ∀ c ∈ cs, c = '0' ∨ c = '1') ∧
    (cs.length ≠ 4 → parseOperand index cs = .error (.operandLength index cs.length)) ∧
    (∀ b, parseOperand index cs = .ok b → operandText b = cs)
end

