-- ==== Sys2Proof/Laws/Arith.lean ====
section
/-! SUPPORT. The primitives in the library's terms, so that later proofs need not unfold them. -/

namespace Sys2Proof.Machine

variable {w : Nat}

/-- The two's-complement negation is the library's negation. -/
theorem complement_eq_neg (b : BitVec w) : complement b = -b := by
  rw [complement, BitVec.neg_eq_not_add]

/-- The modular addition is the library's. -/
theorem add_eq (a b : BitVec w) : add a b = a + b := rfl

/-- The modular subtraction is the library's. -/
theorem sub_eq (a b : BitVec w) : sub a b = a - b := by
  rw [sub, add, complement_eq_neg, BitVec.sub_eq_add_neg]

/-- The signed reading is the library's. -/
theorem sval_eq_toInt (b : BitVec w) : sval b = b.toInt := by
  unfold sval
  rw [BitVec.toInt_eq_msb_cond]
  cases h : b.msb with
  | false => simp
  | true =>
    have hlt := b.isLt
    have hpos : 0 < b.toNat := by
      rw [BitVec.msb_eq_decide] at h
      have := Nat.two_pow_pos (w - 1)
      have := of_decide_eq_true h
      omega
    simp only [Bool.true_eq_false, if_false, if_true, complement_eq_neg, BitVec.toNat_neg]
    rw [Nat.mod_eq_of_lt (by omega)]
    push_cast [Nat.cast_sub hlt.le]
    ring

/-- The zero-extended divisor is 0 only for the divisor 0000 (42_division.md R98). -/
theorem zext5_eq_zero_iff (b : Nibble) : zext5 b = 0#5 ↔ b = 0#4 := by
  revert b; decide

/-- The zero-extended divisor has no fifth bit. -/
theorem zext5_extract (b : Nibble) : (zext5 b).extractLsb' 4 1 = 0#1 := by
  revert b; decide

end Sys2Proof.Machine
end

