-- ==== Sys2Proof/Laws/Decode.lean ====
section
/-! SUPPORT. The fields of a packed command word, and the packing of its fields. -/

namespace Sys2Proof

@[simp] theorem opField_packCommand (op : Bit) (a b : Nibble) : opField (packCommand op a b) = op := by
  revert op a b; decide

@[simp] theorem fieldA_packCommand (op : Bit) (a b : Nibble) : fieldA (packCommand op a b) = a := by
  revert op a b; decide

@[simp] theorem fieldB_packCommand (op : Bit) (a b : Nibble) : fieldB (packCommand op a b) = b := by
  revert op a b; decide

/-- A word is its three fields: no bit of an encoding is dropped. -/
@[simp] theorem packCommand_fields (w : Cmd) : packCommand (opField w) (fieldA w) (fieldB w) = w := by
  revert w; decide

/-- A one-bit field that is not 0 is 1. -/
theorem bit_eq_one_of_ne_zero (b : Bit) (h : b ≠ 0#1) : b = 1#1 := by
  revert b; decide

end Sys2Proof
end

