-- ==== Sys2Proof/Laws/State.lean ====
section
/-! SUPPORT. One lemma per field per update of the state, true by rfl, so that no later proof unfolds an update. -/

namespace Sys2Proof.Machine

section Updates
variable (s : State) (m : Mu) (d : Du) (x y : Nibble)

@[simp] theorem State.refuseCommand_mu : s.refuseCommand.mu = s.mu := rfl
@[simp] theorem State.refuseCommand_du : s.refuseCommand.du = s.du := rfl
@[simp] theorem State.refuseCommand_refusalMark : s.refuseCommand.refusalMark = true := rfl
@[simp] theorem State.refuseCommand_host : s.refuseCommand.host = s.host := rfl
@[simp] theorem State.refuseCommand_reply : s.refuseCommand.reply = s.reply := rfl
@[simp] theorem State.refuseCommand_sched : s.refuseCommand.sched = s.sched := rfl
@[simp] theorem State.refuseCommand_tick : s.refuseCommand.tick = s.tick := rfl

@[simp] theorem applyReset_mu : (applyReset s).mu = Mu.blank := rfl
@[simp] theorem applyReset_du : (applyReset s).du = Du.blank := rfl
@[simp] theorem applyReset_refusalMark : (applyReset s).refusalMark = s.refusalMark := rfl
@[simp] theorem applyReset_host : (applyReset s).host = s.host := rfl
@[simp] theorem applyReset_reply : (applyReset s).reply = s.reply := rfl
@[simp] theorem applyReset_sched : (applyReset s).sched = s.sched := rfl
@[simp] theorem applyReset_tick : (applyReset s).tick = s.tick := rfl

@[simp] theorem State.reset_mu : State.reset.mu = Mu.blank := rfl
@[simp] theorem State.reset_du : State.reset.du = Du.blank := rfl
@[simp] theorem State.reset_refusalMark : State.reset.refusalMark = false := rfl

end Updates

section Emit
variable (m : Mu) (kind : MuKind) (a q : Nibble) (p : Bit) (fin : Option MuFinal)

@[simp] theorem Mu.emit_a : (m.emit kind a q p fin).a = m.a := rfl
@[simp] theorem Mu.emit_q : (m.emit kind a q p fin).q = m.q := rfl
@[simp] theorem Mu.emit_qm1 : (m.emit kind a q p fin).qm1 = m.qm1 := rfl
@[simp] theorem Mu.emit_m : (m.emit kind a q p fin).m = m.m := rfl
@[simp] theorem Mu.emit_y : (m.emit kind a q p fin).y = m.y := rfl
@[simp] theorem Mu.emit_st : (m.emit kind a q p fin).st = m.st := rfl
@[simp] theorem Mu.emit_k : (m.emit kind a q p fin).k = m.k := rfl
@[simp] theorem Mu.emit_n : (m.emit kind a q p fin).n = m.n + 1 := rfl
@[simp] theorem Mu.emit_trace : (m.emit kind a q p fin).trace =
    m.trace ++ [{ idx := m.n, kind := kind, a := a, q := q, qm1 := p, fin := fin }] := rfl

end Emit

section EmitDu
variable (d : Du) (kind : DuKind) (a : Acc) (q : Nibble) (fin : Option DuFinal) (x : Nibble)

@[simp] theorem Du.emit_a : (d.emit kind a q fin).a = d.a := rfl
@[simp] theorem Du.emit_q : (d.emit kind a q fin).q = d.q := rfl
@[simp] theorem Du.emit_m : (d.emit kind a q fin).m = d.m := rfl
@[simp] theorem Du.emit_x : (d.emit kind a q fin).x = d.x := rfl
@[simp] theorem Du.emit_st : (d.emit kind a q fin).st = d.st := rfl
@[simp] theorem Du.emit_k : (d.emit kind a q fin).k = d.k := rfl
@[simp] theorem Du.emit_n : (d.emit kind a q fin).n = d.n + 1 := rfl
@[simp] theorem Du.emit_trace : (d.emit kind a q fin).trace =
    d.trace ++ [{ idx := d.n, kind := kind, a := a, q := q, msg := none, fin := fin }] := rfl

@[simp] theorem Du.raiseDivideByZero_a : (d.raiseDivideByZero x).a = d.a := rfl
@[simp] theorem Du.raiseDivideByZero_q : (d.raiseDivideByZero x).q = d.q := rfl
@[simp] theorem Du.raiseDivideByZero_m : (d.raiseDivideByZero x).m = d.m := rfl
@[simp] theorem Du.raiseDivideByZero_x : (d.raiseDivideByZero x).x = d.x := rfl
@[simp] theorem Du.raiseDivideByZero_st : (d.raiseDivideByZero x).st = .error := rfl
@[simp] theorem Du.raiseDivideByZero_k : (d.raiseDivideByZero x).k = d.k := rfl
@[simp] theorem Du.raiseDivideByZero_n : (d.raiseDivideByZero x).n = 1 := rfl

end EmitDu

section Levels
variable (m : Mu) (d : Du)

/-- MU is quiescent exactly in `IDLE` and `DONE` (R30, R32). -/
theorem Mu.busy_eq_false_iff : m.busy = false ↔ m.st = .idle ∨ m.st = .done := by
  unfold Mu.busy; cases m.st <;> simp

/-- DU is quiescent exactly in `IDLE`, `DONE` and `ERROR` (R30, R32). -/
theorem Du.busy_eq_false_iff : d.busy = false ↔ d.st = .idle ∨ d.st = .done ∨ d.st = .error := by
  unfold Du.busy; cases d.st <;> simp

/-- MU is busy exactly in its three running states. -/
theorem Mu.busy_iff : m.busy = true ↔ m.st = .op ∨ m.st = .shift ∨ m.st = .final := by
  unfold Mu.busy; cases m.st <;> simp

/-- DU is busy exactly in its five running states. -/
theorem Du.busy_iff : d.busy = true ↔
    d.st = .shift ∨ d.st = .adjust ∨ d.st = .setq0 ∨ d.st = .restore ∨ d.st = .final := by
  unfold Du.busy; cases d.st <;> simp

end Levels

end Sys2Proof.Machine
end

