-- ==== Sys2Proof/Laws/Ops.lean ====
section
/-! SUPPORT. What each shared operation can do when it answers a next state; later proofs cite these and do not unfold the
operations. -/

namespace Sys2Proof.Machine

section Read
variable {α : Type} {r : Reg} {v : Option α} {use : α → Out} {x : α} {t : State}

@[simp] theorem readReg_some : readReg r (some x) use = use x := rfl

@[simp] theorem readReg_none : readReg r (none : Option α) use = .fault (.readUnwritten r) := rfl

/-- A read that goes on found a value. -/
theorem readReg_next (h : readReg r v use = .next t) : ∃ x, v = some x ∧ use x = .next t := by
  cases v with
  | none => cases h
  | some x => exact ⟨x, rfl, h⟩

/-- A read of a register that holds a value never faults by itself. -/
theorem readReg_of_isSome (h : v.isSome) : ∃ x, v = some x ∧ readReg r v use = use x := by
  obtain ⟨x, rfl⟩ := Option.isSome_iff_exists.mp h
  exact ⟨x, rfl, rfl⟩

end Read

section Guards
variable {i : Instr} {s t : State}

/-- A state-selected step of MU that goes on was asked for in its state. -/
theorem inMuState_next {st : MuSt} {body : Out} (h : inMuState i st s body = .next t) :
    s.mu.st = st ∧ body = .next t := by
  unfold inMuState at h
  split at h
  · exact ⟨‹_›, h⟩
  · cases h

/-- A state-selected step of DU that goes on was asked for in its state. -/
theorem inDuState_next {st : DuSt} {body : Out} (h : inDuState i st s body = .next t) :
    s.du.st = st ∧ body = .next t := by
  unfold inDuState at h
  split at h
  · exact ⟨‹_›, h⟩
  · cases h

/-- A pair-selected step of MU that goes on was asked for in `OP`, with that pair. -/
theorem inMuPair_next {c : Pair} {body : Nibble → Bit → Out} (h : inMuPair i c s body = .next t) :
    s.mu.st = .op ∧ ∃ q p, s.mu.q = some q ∧ s.mu.qm1 = some p ∧ controlPair q p = c ∧ body q p = .next t := by
  obtain ⟨hst, h⟩ := inMuState_next h
  obtain ⟨q, hq, h⟩ := readReg_next h
  obtain ⟨p, hp, h⟩ := readReg_next h
  split at h
  · exact ⟨hst, q, p, hq, hp, ‹_›, h⟩
  · cases h

/-- A sign-selected step of DU that goes on was asked for in `ADJUST`, with that sign. -/
theorem inDuAdjust_next {sign : Bit} {body : Acc → Out} (h : inDuAdjust i sign s body = .next t) :
    s.du.st = .adjust ∧ ∃ a, s.du.a = some a ∧ signBit a = sign ∧ body a = .next t := by
  obtain ⟨hst, h⟩ := inDuState_next h
  obtain ⟨a, ha, h⟩ := readReg_next h
  split at h
  · exact ⟨hst, a, ha, ‹_›, h⟩
  · cases h

end Guards

section Start
variable {s t : State}

/-- A command to MU either is refused by the mark alone, or replaces MU's state alone. -/
theorem startMu_next {m : Mu} (h : startMu m s = .next t) :
    (s.mu.busy = true ∧ t = s.refuseCommand) ∨ (s.mu.busy = false ∧ t = { s with mu := m }) := by
  unfold startMu at h
  cases hb : s.mu.busy with
  | true => rw [if_pos hb] at h; exact .inl ⟨rfl, by cases h; rfl⟩
  | false => rw [if_neg (by simp [hb])] at h; exact .inr ⟨rfl, by cases h; rfl⟩

/-- A command to DU either is refused by the mark alone, or replaces DU's state alone. -/
theorem startDu_next {d : Du} (h : startDu d s = .next t) :
    (s.du.busy = true ∧ t = s.refuseCommand) ∨ (s.du.busy = false ∧ t = { s with du := d }) := by
  unfold startDu at h
  cases hb : s.du.busy with
  | true => rw [if_pos hb] at h; exact .inl ⟨rfl, by cases h; rfl⟩
  | false => rw [if_neg (by simp [hb])] at h; exact .inr ⟨rfl, by cases h; rfl⟩

end Start

section Operation
variable {s t : State}

/-- What an operation step of MU leaves. -/
theorem muOperation_next {kind : MuKind} {a q : Nibble} {p : Bit} (h : muOperation kind a q p s = .next t) :
    t = { s with mu := { s.mu.emit kind a q p none with a := some a, st := .shift } } := by
  cases h; rfl

/-- What an adjust step of DU leaves. -/
theorem duAdjustStep_next {kind : DuKind} {a : Acc} {q : Nibble} (h : duAdjustStep kind a q s = .next t) :
    t = { s with du := { s.du.emit kind a q none with a := some a, st := .setq0 } } := by
  cases h; rfl

end Operation

end Sys2Proof.Machine
end

