-- ==== Sys2Proof/Laws/Exec.lean ====
section
/-! SUPPORT. Everything a meaning can do when it answers a next state, one lemma per instruction, and the one disjunction over
all of them that says which part of the state an instruction can touch. -/

namespace Sys2Proof.Machine

variable {s t : State}

theorem execMuSub_next (h : execMuSub s = .next t) :
    s.mu.st = .op ∧ ∃ a q p m, s.mu.a = some a ∧ s.mu.q = some q ∧ s.mu.qm1 = some p ∧ s.mu.m = some m ∧
      controlPair q p = 0b10#2 ∧
      t = { s with mu := { s.mu.emit .sub (sub a m) q p none with a := some (sub a m), st := .shift } } := by
  obtain ⟨hst, q, p, hq, hp, hc, h⟩ := inMuPair_next h
  obtain ⟨a, ha, h⟩ := readReg_next h
  obtain ⟨m, hm, h⟩ := readReg_next h
  exact ⟨hst, a, q, p, m, ha, hq, hp, hm, hc, muOperation_next h⟩

theorem execMuAdd_next (h : execMuAdd s = .next t) :
    s.mu.st = .op ∧ ∃ a q p m, s.mu.a = some a ∧ s.mu.q = some q ∧ s.mu.qm1 = some p ∧ s.mu.m = some m ∧
      controlPair q p = 0b01#2 ∧
      t = { s with mu := { s.mu.emit .add (add a m) q p none with a := some (add a m), st := .shift } } := by
  obtain ⟨hst, q, p, hq, hp, hc, h⟩ := inMuPair_next h
  obtain ⟨a, ha, h⟩ := readReg_next h
  obtain ⟨m, hm, h⟩ := readReg_next h
  exact ⟨hst, a, q, p, m, ha, hq, hp, hm, hc, muOperation_next h⟩

theorem muNoOperation_next {i : Instr} {c : Pair} (h : muNoOperation i c s = .next t) :
    s.mu.st = .op ∧ ∃ a q p, s.mu.a = some a ∧ s.mu.q = some q ∧ s.mu.qm1 = some p ∧ controlPair q p = c ∧
      t = { s with mu := { s.mu.emit .nop a q p none with a := some a, st := .shift } } := by
  obtain ⟨hst, q, p, hq, hp, hc, h⟩ := inMuPair_next h
  obtain ⟨a, ha, h⟩ := readReg_next h
  exact ⟨hst, a, q, p, ha, hq, hp, hc, muOperation_next h⟩

theorem execMuAsr_next (h : execMuAsr s = .next t) :
    s.mu.st = .shift ∧ ∃ a q p k, s.mu.a = some a ∧ s.mu.q = some q ∧ s.mu.qm1 = some p ∧ s.mu.k = some k ∧
      t = { s with mu := { s.mu.emit .asr (asr a q p).1 (asr a q p).2.1 (asr a q p).2.2 none with
        a := some (asr a q p).1
        q := some (asr a q p).2.1
        qm1 := some (asr a q p).2.2
        k := some (k + 1#3)
        st := if k + 1#3 = Config.iterations then .final else .op } } := by
  obtain ⟨hst, h⟩ := inMuState_next h
  obtain ⟨a, ha, h⟩ := readReg_next h
  obtain ⟨q, hq, h⟩ := readReg_next h
  obtain ⟨p, hp, h⟩ := readReg_next h
  obtain ⟨k, hk, h⟩ := readReg_next h
  exact ⟨hst, a, q, p, k, ha, hq, hp, hk, by cases h; rfl⟩

theorem execMuFinal_next (h : execMuFinal s = .next t) :
    s.mu.st = .final ∧ ∃ a q p m y, s.mu.a = some a ∧ s.mu.q = some q ∧ s.mu.qm1 = some p ∧ s.mu.m = some m ∧
      s.mu.y = some y ∧
      t = { s with mu := { s.mu.emit .final a q p (some
        { p := product a q, pDec := sval (product a q), mDec := sval m, yDec := sval y }) with st := .done } } := by
  obtain ⟨hst, h⟩ := inMuState_next h
  obtain ⟨a, ha, h⟩ := readReg_next h
  obtain ⟨q, hq, h⟩ := readReg_next h
  obtain ⟨p, hp, h⟩ := readReg_next h
  obtain ⟨m, hm, h⟩ := readReg_next h
  obtain ⟨y, hy, h⟩ := readReg_next h
  exact ⟨hst, a, q, p, m, y, ha, hq, hp, hm, hy, by cases h; rfl⟩

theorem execDuShl_next (h : execDuShl s = .next t) :
    s.du.st = .shift ∧ ∃ a q, s.du.a = some a ∧ s.du.q = some q ∧
      t = { s with du := { s.du.emit .shl (shl a q).1 (shl a q).2 none with
        a := some (shl a q).1, q := some (shl a q).2, st := .adjust } } := by
  obtain ⟨hst, h⟩ := inDuState_next h
  obtain ⟨a, ha, h⟩ := readReg_next h
  obtain ⟨q, hq, h⟩ := readReg_next h
  exact ⟨hst, a, q, ha, hq, by cases h; rfl⟩

theorem execDuSub_next (h : execDuSub s = .next t) :
    s.du.st = .adjust ∧ ∃ a q m, s.du.a = some a ∧ s.du.q = some q ∧ s.du.m = some m ∧ signBit a = 0#1 ∧
      t = { s with du := { s.du.emit .sub (sub a m) q none with a := some (sub a m), st := .setq0 } } := by
  obtain ⟨hst, a, ha, hs, h⟩ := inDuAdjust_next h
  obtain ⟨m, hm, h⟩ := readReg_next h
  obtain ⟨q, hq, h⟩ := readReg_next h
  exact ⟨hst, a, q, m, ha, hq, hm, hs, duAdjustStep_next h⟩

theorem execDuAdd_next (h : execDuAdd s = .next t) :
    s.du.st = .adjust ∧ ∃ a q m, s.du.a = some a ∧ s.du.q = some q ∧ s.du.m = some m ∧ signBit a = 1#1 ∧
      t = { s with du := { s.du.emit .add (add a m) q none with a := some (add a m), st := .setq0 } } := by
  obtain ⟨hst, a, ha, hs, h⟩ := inDuAdjust_next h
  obtain ⟨m, hm, h⟩ := readReg_next h
  obtain ⟨q, hq, h⟩ := readReg_next h
  exact ⟨hst, a, q, m, ha, hq, hm, hs, duAdjustStep_next h⟩

theorem execDuSetq0_next (h : execDuSetq0 s = .next t) :
    s.du.st = .setq0 ∧ ∃ a q k, s.du.a = some a ∧ s.du.q = some q ∧ s.du.k = some k ∧
      t = { s with du := { s.du.emit .setq0 a (withQ0 q (quotientBit a)) none with
        q := some (withQ0 q (quotientBit a))
        k := some (k + 1#3)
        st := afterSetQ0 (k + 1#3) a } } := by
  obtain ⟨hst, h⟩ := inDuState_next h
  obtain ⟨a, ha, h⟩ := readReg_next h
  obtain ⟨q, hq, h⟩ := readReg_next h
  obtain ⟨k, hk, h⟩ := readReg_next h
  exact ⟨hst, a, q, k, ha, hq, hk, by cases h; rfl⟩

theorem execDuRestore_next (h : execDuRestore s = .next t) :
    s.du.st = .restore ∧ ∃ a q m, s.du.a = some a ∧ s.du.q = some q ∧ s.du.m = some m ∧
      t = { s with du := { s.du.emit .restore (add a m) q none with a := some (add a m), st := .final } } := by
  obtain ⟨hst, h⟩ := inDuState_next h
  obtain ⟨a, ha, h⟩ := readReg_next h
  obtain ⟨m, hm, h⟩ := readReg_next h
  obtain ⟨q, hq, h⟩ := readReg_next h
  exact ⟨hst, a, q, m, ha, hq, hm, by cases h; rfl⟩

theorem execDuFinal_next (h : execDuFinal s = .next t) :
    s.du.st = .final ∧ ∃ a q m x, s.du.a = some a ∧ s.du.q = some q ∧ s.du.m = some m ∧ s.du.x = some x ∧
      t = { s with du := { s.du.emit .final a q (some
        { xDec := sval x, mDec := sval m, qDec := sval q, rDec := sval a }) with st := .done } } := by
  obtain ⟨hst, h⟩ := inDuState_next h
  obtain ⟨a, ha, h⟩ := readReg_next h
  obtain ⟨q, hq, h⟩ := readReg_next h
  obtain ⟨m, hm, h⟩ := readReg_next h
  obtain ⟨x, hx, h⟩ := readReg_next h
  exact ⟨hst, a, q, m, x, ha, hq, hm, hx, by cases h; rfl⟩

/-- The part of the state an instruction can touch: its own unit, or the refusal mark. -/
theorem exec_next {i : Instr} (h : exec i s = .next t) :
    (i.unit = .mu ∧ ∃ m, t = { s with mu := m }) ∨ (i.unit = .du ∧ ∃ d, t = { s with du := d }) ∨
      (i.isCommand = true ∧ t = s.refuseCommand) := by
  cases i with
  | mul x y =>
    rcases startMu_next h with ⟨_, rfl⟩ | ⟨_, rfl⟩
    · exact .inr (.inr ⟨rfl, rfl⟩)
    · exact .inl ⟨rfl, _, rfl⟩
  | div x d =>
    rcases startDu_next h with ⟨_, rfl⟩ | ⟨_, rfl⟩
    · exact .inr (.inr ⟨rfl, rfl⟩)
    · exact .inr (.inl ⟨rfl, _, rfl⟩)
  | divZero x =>
    rcases startDu_next h with ⟨_, rfl⟩ | ⟨_, rfl⟩
    · exact .inr (.inr ⟨rfl, rfl⟩)
    · exact .inr (.inl ⟨rfl, _, rfl⟩)
  | muSub => obtain ⟨_, _, _, _, _, _, _, _, _, _, rfl⟩ := execMuSub_next h; exact .inl ⟨rfl, _, rfl⟩
  | muAdd => obtain ⟨_, _, _, _, _, _, _, _, _, _, rfl⟩ := execMuAdd_next h; exact .inl ⟨rfl, _, rfl⟩
  | muNop00 => obtain ⟨_, _, _, _, _, _, _, _, rfl⟩ := muNoOperation_next h; exact .inl ⟨rfl, _, rfl⟩
  | muNop11 => obtain ⟨_, _, _, _, _, _, _, _, rfl⟩ := muNoOperation_next h; exact .inl ⟨rfl, _, rfl⟩
  | muAsr => obtain ⟨_, _, _, _, _, _, _, _, _, rfl⟩ := execMuAsr_next h; exact .inl ⟨rfl, _, rfl⟩
  | muFinal => obtain ⟨_, _, _, _, _, _, _, _, _, _, _, rfl⟩ := execMuFinal_next h; exact .inl ⟨rfl, _, rfl⟩
  | duShl => obtain ⟨_, _, _, _, _, rfl⟩ := execDuShl_next h; exact .inr (.inl ⟨rfl, _, rfl⟩)
  | duSub => obtain ⟨_, _, _, _, _, _, _, _, rfl⟩ := execDuSub_next h; exact .inr (.inl ⟨rfl, _, rfl⟩)
  | duAdd => obtain ⟨_, _, _, _, _, _, _, _, rfl⟩ := execDuAdd_next h; exact .inr (.inl ⟨rfl, _, rfl⟩)
  | duSetq0 => obtain ⟨_, _, _, _, _, _, _, rfl⟩ := execDuSetq0_next h; exact .inr (.inl ⟨rfl, _, rfl⟩)
  | duRestore => obtain ⟨_, _, _, _, _, _, _, rfl⟩ := execDuRestore_next h; exact .inr (.inl ⟨rfl, _, rfl⟩)
  | duFinal => obtain ⟨_, _, _, _, _, _, _, _, _, rfl⟩ := execDuFinal_next h; exact .inr (.inl ⟨rfl, _, rfl⟩)

end Sys2Proof.Machine
end

