-- ==== Sys2Proof/Laws/PerInstr.lean ====
section
/-! SUPPORT. The family `CodeUnit`: an instruction's code word belongs to the unit the instruction acts on (30_encoding.md R52;
41_booth.md R89; 42_division.md R110). One lemma per constructor. -/

namespace Sys2Proof.Laws.CodeUnit

def Statement (i : Instr) : Prop := (encode i).unit = i.unit

theorem mul (x y : Nibble) : Statement (.mul x y) := by simp [Statement, encode, CodeWord.unit, Instr.unit]
theorem div (x d : Nibble) : Statement (.div x d) := by simp [Statement, encode, CodeWord.unit, Instr.unit]
theorem divZero (x : Nibble) : Statement (.divZero x) := by simp [Statement, encode, CodeWord.unit, Instr.unit]
theorem muSub : Statement .muSub := rfl
theorem muAdd : Statement .muAdd := rfl
theorem muNop00 : Statement .muNop00 := rfl
theorem muNop11 : Statement .muNop11 := rfl
theorem muAsr : Statement .muAsr := rfl
theorem muFinal : Statement .muFinal := rfl
theorem duShl : Statement .duShl := rfl
theorem duSub : Statement .duSub := rfl
theorem duAdd : Statement .duAdd := rfl
theorem duSetq0 : Statement .duSetq0 := rfl
theorem duRestore : Statement .duRestore := rfl
theorem duFinal : Statement .duFinal := rfl

end Sys2Proof.Laws.CodeUnit
end

