-- ==== Sys2Proof/Laws/Step.lean ====
section
/-! SUPPORT. How a step is made: whose moment it is, what a moment runs, and how runs unfold. -/

namespace Sys2Proof.Machine

variable {s t : State}

/-- A scheduled moment is the next one. -/
theorem State.nextTurn_cons {u : Turn} {rest : List Turn} (h : s.sched = u :: rest) :
    s.nextTurn = (some u, { s with sched := rest }) := by
  unfold State.nextTurn; rw [h]

/-- A step with a moment scheduled is that moment. -/
theorem step_cons {u : Turn} {rest : List Turn} (h : s.sched = u :: rest) :
    step s = runTurn u { s with sched := rest } := by
  unfold step; rw [State.nextTurn_cons h]

/-- With nothing scheduled and nothing that can move, nothing happens. -/
theorem step_idle (h : s.sched = []) (hr : s.ready = []) : step s = .next s := by
  unfold step State.nextTurn; rw [h, hr]

/-- With nothing scheduled and one agent that can move, it moves. -/
theorem step_single {a : Agent} (h : s.sched = []) (hr : s.ready = [a]) : step s = runAgent a s := by
  unfold step State.nextTurn; rw [h, hr]; rfl

/-- With nothing scheduled and several agents that can move, one of them does, whatever the free choice is. -/
theorem step_free {a b : Agent} {more : List Agent} (h : s.sched = []) (hr : s.ready = a :: b :: more) :
    ∃ c ∈ s.ready, step s = runAgent c { s with tick := s.tick + 1 } := by
  have hlt : Config.arbiter s.tick % (more.length + 2) < (a :: b :: more).length := Nat.mod_lt _ (Nat.succ_pos _)
  refine ⟨(a :: b :: more)[Config.arbiter s.tick % (more.length + 2)], ?_, ?_⟩
  · rw [hr]; exact List.getElem_mem hlt
  · unfold step State.nextTurn
    rw [h, hr]
    simp only [List.getD_eq_getElem _ _ hlt, runTurn, Bool.false_eq_true, if_false]

@[simp] theorem runTurn_plain (a : Agent) : runTurn ⟨a, false⟩ s = runAgent a s := rfl

@[simp] theorem runTurn_reset (a : Agent) : runTurn ⟨a, true⟩ s = .next (applyReset (dropCommand a s)) := rfl

@[simp] theorem runAgent_mu : runAgent .mu s = runUnit s.mu.codeWord s := rfl

@[simp] theorem runAgent_du : runAgent .du s = runUnit s.du.codeWord s := rfl

@[simp] theorem runAgent_host : runAgent .host s = runHost s := rfl

/-- A code word that selects an instruction runs it. -/
theorem runCode_ok {c : CodeWord} {i : Instr} (h : decode c = .ok i) : runCode c s = exec i s := by
  unfold runCode; rw [h]

/-- A code word that selects none leaves the state. -/
theorem runCode_error {c : CodeWord} {e : DecodeError} (h : decode c = .error e) : runCode c s = .next s := by
  unfold runCode; rw [h]

/-- A unit's move that goes on found its code word. -/
theorem runUnit_next {c : Except Fault CodeWord} (h : runUnit c s = .next t) : ∃ w, c = .ok w ∧ runCode w s = .next t := by
  cases c with
  | ok w => exact ⟨w, rfl, h⟩
  | error f => cases h

/-- A code word that goes on either ran its instruction or left the state. -/
theorem runCode_next {c : CodeWord} (h : runCode c s = .next t) :
    (∃ i, decode c = .ok i ∧ exec i s = .next t) ∨ ((∃ e, decode c = .error e) ∧ t = s) := by
  cases hd : decode c with
  | ok i => exact .inl ⟨i, rfl, by rwa [runCode_ok hd] at h⟩
  | error e => exact .inr ⟨⟨e, rfl⟩, by rw [runCode_error hd] at h; cases h; rfl⟩

@[simp] theorem run_zero : run 0 s = .next s := rfl

/-- A run of `k + 1` steps is a step and a run of `k`. -/
theorem run_succ_of_next {k : Nat} (h : step s = .next t) : run (k + 1) s = run k t := by
  simp only [run, h]

/-- A run split in two. -/
theorem run_add_of_next {j k : Nat} (h : run j s = .next t) : run (j + k) s = run k t := by
  induction j generalizing s with
  | zero => cases h; rw [Nat.zero_add]
  | succ j ih =>
    rw [Nat.succ_add]
    cases hs : step s with
    | next u => rw [run_succ_of_next hs] at h ⊢; exact ih h
    | fault f => simp only [run, hs] at h; cases h
    | refused r => simp only [run, hs] at h; cases h

/-- The host's run of any core, one step unfolded. -/
theorem core_run_next (M : Host.Core) (k : Nat) (u v : M.State) (h : M.step u = .next v) : M.run (k + 1) u = M.run k v := by
  simp only [Host.Core.run, h]

theorem core_run_fault (M : Host.Core) (k : Nat) (u : M.State) (f : M.Fault) (h : M.step u = .fault f) :
    M.run (k + 1) u = .fault f := by
  simp only [Host.Core.run, h]

theorem core_run_refused (M : Host.Core) (k : Nat) (u : M.State) (r : M.Refusal) (h : M.step u = .refused r) :
    M.run (k + 1) u = .refused r := by
  simp only [Host.Core.run, h]

/-- The runs the claims speak of are the host's runs of the core. -/
theorem run_eq_core_run (k : Nat) (s : State) : run k s = Sys2Proof.core.run k s := by
  induction k generalizing s with
  | zero => rfl
  | succ k ih =>
    cases hs : step s with
    | next u => exact (run_succ_of_next hs).trans ((ih u).trans (core_run_next Sys2Proof.core k s u hs).symm)
    | fault f =>
      have h : run (k + 1) s = .fault f := by simp only [run, hs]
      exact h.trans (core_run_fault Sys2Proof.core k s f hs).symm
    | refused r =>
      have h : run (k + 1) s = .refused r := by simp only [run, hs]
      exact h.trans (core_run_refused Sys2Proof.core k s r hs).symm

end Sys2Proof.Machine
end

