-- ==== Sys2Proof/Tests/Slice0.lean ====
section
/-! SUPPORT. Tests of the model against the vectors of spec/95_test_vectors.md and the worked examples of the rules, and a witness for the
hypotheses of every statement that has some. No expected value comes from the model. -/

namespace Sys2Proof.Machine.Tests

/-! ### Small states -/

/-- MU in state `st` with the given `A`, `Q`, `Qm1`, `M`; `Y = 0111`, `k = 0`, `n = 1`, empty trace. -/
def muAt (st : MuSt) (a q : Nibble) (p : Bit) (m : Nibble) : State :=
  { State.reset with mu :=
    { a := some a, q := some q, qm1 := some p, m := some m, y := some 0b0111#4, st := st, k := some 0#3, n := 1, trace := [] } }

/-- DU in state `st` with the given `A`, `Q`, `M` and counter; `X = 1011`, `n = 1`, empty trace. -/
def duAt (st : DuSt) (a : Acc) (q : Nibble) (m : Acc) (k : Counter) : State :=
  { State.reset with du := { a := some a, q := some q, m := some m, x := some 0b1011#4, st := st, k := some k, n := 1, trace := [] } }

/-- What the vectors of V-B1 list of MU after a step: `A`, `Q`, `Qm1`, the record's kind, the next state. -/
def muAfter : Out → Option (Option Nibble × Option Nibble × Option Bit × Option MuKind × MuSt)
  | .next t => some (t.mu.a, t.mu.q, t.mu.qm1, t.mu.trace.getLast?.map MuRecord.kind, t.mu.st)
  | .fault _ => none
  | .refused _ => none

/-- What the vectors of V-D1 list of DU after a step: `A`, `Q`, the record's kind, the next state. -/
def duAfter : Out → Option (Option Acc × Option Nibble × Option DuKind × DuSt)
  | .next t => some (t.du.a, t.du.q, t.du.trace.getLast?.map DuRecord.kind, t.du.st)
  | .fault _ => none
  | .refused _ => none

/-- The host's next move is `m`, the next moment is the host's. -/
def hostAt (m : HostMove) (s : State) : State := { s with host := [m], sched := [⟨.host, false⟩] }

/-- The next moment is `a`'s. -/
def turnOf (a : Agent) (s : State) : State := { s with sched := [⟨a, false⟩] }

/-- MU with the final record of `MUL 1101, 0111` as its last (W1). -/
def muDone : Mu :=
  { a := some 0b1110#4, q := some 0b1011#4, qm1 := some 0#1, m := some 0b1101#4, y := some 0b0111#4, st := .done, k := some 4#3
    n := 10
    trace := [
      ⟨0, .init, 0b0000#4, 0b0111#4, 0#1, none⟩, ⟨1, .sub, 0b0011#4, 0b0111#4, 0#1, none⟩,
      ⟨2, .asr, 0b0001#4, 0b1011#4, 1#1, none⟩, ⟨3, .nop, 0b0001#4, 0b1011#4, 1#1, none⟩,
      ⟨4, .asr, 0b0000#4, 0b1101#4, 1#1, none⟩, ⟨5, .nop, 0b0000#4, 0b1101#4, 1#1, none⟩,
      ⟨6, .asr, 0b0000#4, 0b0110#4, 1#1, none⟩, ⟨7, .add, 0b1101#4, 0b0110#4, 1#1, none⟩,
      ⟨8, .asr, 0b1110#4, 0b1011#4, 0#1, none⟩,
      ⟨9, .final, 0b1110#4, 0b1011#4, 0#1, some ⟨0b11101011#8, -21, -3, 7⟩⟩] }

/-- DU with the final record of `DIV 1011, 0011` as its last (W3). -/
def duDone : Du :=
  { a := some 0b00010#5, q := some 0b0011#4, m := some 0b00011#5, x := some 0b1011#4, st := .done, k := some 4#3, n := 14
    trace := [
      ⟨0, .init, 0b00000#5, 0b1011#4, none, none⟩, ⟨1, .shl, 0b00001#5, 0b0110#4, none, none⟩,
      ⟨2, .sub, 0b11110#5, 0b0110#4, none, none⟩, ⟨3, .setq0, 0b11110#5, 0b0110#4, none, none⟩,
      ⟨4, .shl, 0b11100#5, 0b1100#4, none, none⟩, ⟨5, .add, 0b11111#5, 0b1100#4, none, none⟩,
      ⟨6, .setq0, 0b11111#5, 0b1100#4, none, none⟩, ⟨7, .shl, 0b11111#5, 0b1000#4, none, none⟩,
      ⟨8, .add, 0b00010#5, 0b1000#4, none, none⟩, ⟨9, .setq0, 0b00010#5, 0b1001#4, none, none⟩,
      ⟨10, .shl, 0b00101#5, 0b0010#4, none, none⟩, ⟨11, .sub, 0b00010#5, 0b0010#4, none, none⟩,
      ⟨12, .setq0, 0b00010#5, 0b0011#4, none, none⟩,
      ⟨13, .final, 0b00010#5, 0b0011#4, none, some ⟨-5, 3, 3, 2⟩⟩] }

/-! ### Well-formedness -/

/-- The ill-formed term: the general DIV row does not have the divisor 0000 (R97, R98). -/
theorem test_wellFormed_refuses_div_zero : (Instr.div 0b0101#4 0#4).wellFormed = false := by decide
theorem test_wellFormed_accepts_div : (Instr.div 0b0101#4 1#4).wellFormed = true := by decide

/-! ### Decoding: words written out from R51 and the tables R58, R59, R61 (V-E1, V-E3) -/

/-- `0_1101_0111`. -/
theorem test_decode_mul : decode (.cmd9 0b011010111#9) = .ok (.mul 0b1101#4 0b0111#4) := by decide
/-- `0_1000_0001`. -/
theorem test_decode_mul_operand_order : decodeWord 0x081 = .ok (.mul 0b1000#4 0b0001#4) := by decide
/-- `1_1011_0011`. -/
theorem test_decode_div : decode (.cmd9 0b110110011#9) = .ok (.div 0b1011#4 0b0011#4) := by decide
/-- `1_0101_0000`. -/
theorem test_decode_divZero : decode (.cmd9 0b101010000#9) = .ok (.divZero 0b0101#4) := by decide
theorem test_decode_muSub : decode (.muPair 0b10#2) = .ok .muSub := by decide
theorem test_decode_muAdd : decode (.muPair 0b01#2) = .ok .muAdd := by decide
theorem test_decode_muNop00 : decode (.muPair 0b00#2) = .ok .muNop00 := by decide
theorem test_decode_muNop11 : decode (.muPair 0b11#2) = .ok .muNop11 := by decide
theorem test_decode_muAsr : decode (.muSeq .shift) = .ok .muAsr := by decide
theorem test_decode_muFinal : decode (.muSeq .final) = .ok .muFinal := by decide
theorem test_decode_duShl : decode (.duSeq .shift) = .ok .duShl := by decide
theorem test_decode_duSub : decode (.duAdjust 0#1) = .ok .duSub := by decide
theorem test_decode_duAdd : decode (.duAdjust 1#1) = .ok .duAdd := by decide
theorem test_decode_duSetq0 : decode (.duSeq .setq0) = .ok .duSetq0 := by decide
theorem test_decode_duRestore : decode (.duCorrect 1#1) = .ok .duRestore := by decide
theorem test_decode_no_restore : decode (.duCorrect 0#1) = .error .noRestore := by decide
theorem test_decode_duFinal : decode (.duSeq .final) = .ok .duFinal := by decide
/-- A number above `1_1111_1111` is no word (R62). -/
theorem test_decode_ten_bits : decodeWord 0x200 = .error (.notNineBits 0x200) := by decide

/-! ### The table's words and the machine -/

theorem test_table_words :
    decodeTableWord 16 0x0D7 = some (.mul 0b1101#4 0b0111#4) ∧ decodeTableWord 16 0x150 = some (.divZero 0b0101#4) ∧
    decodeTableWord 8 2 = some .muSub ∧ decodeTableWord 8 4 = none := by decide
theorem test_fetch_command : step (State.reset.withFetchWord 16 0x0D7) = exec (.mul 0b1101#4 0b0111#4) State.reset := rfl
theorem test_fetch_pair :
    muAfter (step (State.reset.withFetchWord 8 2)) = some (some 0#4, some 1#4, some 0#1, some .sub, .shift) := by decide

/-! ### Primitives (V-P1 to V-P6) -/

theorem test_complement : complement 0b0011#4 = 0b1101#4 ∧ complement 0b1000#4 = 0b1000#4 ∧ complement 0#4 = 0#4 := by decide
theorem test_sub_wraps : sub 0b0111#4 0b1111#4 = 0b1000#4 ∧ sub 0b00001#5 0b01111#5 = 0b10010#5 := by decide
theorem test_sval : sval 0b11101011#8 = -21 ∧ sval 0b1000#4 = -8 ∧ sval 0b00010#5 = 2 := by decide
theorem test_asr :
    asr 0b0111#4 0b1110#4 1#1 = (0b0011#4, 0b1111#4, 0#1) ∧ asr 0b1101#4 0b0111#4 0#1 = (0b1110#4, 0b1011#4, 1#1) := by decide
theorem test_shl :
    shl 0b10111#5 0b0101#4 = (0b01110#5, 0b1010#4) ∧ shl 0b01000#5 0b0000#4 = (0b10000#5, 0b0000#4) := by decide
theorem test_zext5 : zext5 0b1101#4 = 0b01101#5 := by decide

/-! ### Single steps of MU (V-B1; the examples of R82 and R88) -/

theorem test_mul :
    muAfter (exec (.mul 0b1101#4 0b0111#4) State.reset) =
      some (some 0b0000#4, some 0b0111#4, some 0#1, some .init, .op) := by decide
theorem test_muSub_example :
    muAfter (exec .muSub (muAt .op 0b0000#4 0b0111#4 0#1 0b1101#4)) =
      some (some 0b0011#4, some 0b0111#4, some 0#1, some .sub, .shift) := by decide
theorem test_muSub_wraps :
    muAfter (exec .muSub (muAt .op 0b0111#4 0b0001#4 0#1 0b1111#4)) =
      some (some 0b1000#4, some 0b0001#4, some 0#1, some .sub, .shift) := by decide
theorem test_muAdd_example :
    muAfter (exec .muAdd (muAt .op 0b0000#4 0b0010#4 1#1 0b1101#4)) =
      some (some 0b1101#4, some 0b0010#4, some 1#1, some .add, .shift) := by decide
theorem test_muAdd_wraps :
    muAfter (exec .muAdd (muAt .op 0b1100#4 0b0010#4 1#1 0b1000#4)) =
      some (some 0b0100#4, some 0b0010#4, some 1#1, some .add, .shift) := by decide
theorem test_muNop11 :
    muAfter (exec .muNop11 (muAt .op 0b0001#4 0b1011#4 1#1 0b0011#4)) =
      some (some 0b0001#4, some 0b1011#4, some 1#1, some .nop, .shift) := by decide
theorem test_muNop00 :
    muAfter (exec .muNop00 (muAt .op 0b0000#4 0b0110#4 0#1 0b0011#4)) =
      some (some 0b0000#4, some 0b0110#4, some 0#1, some .nop, .shift) := by decide
theorem test_muAsr_after_sub :
    muAfter (exec .muAsr (muAt .shift 0b0011#4 0b0111#4 0#1 0b1101#4)) =
      some (some 0b0001#4, some 0b1011#4, some 1#1, some .asr, .op) := by decide
theorem test_muAsr_negative :
    muAfter (exec .muAsr (muAt .shift 0b1101#4 0b0011#4 1#1 0b1101#4)) =
      some (some 0b1110#4, some 0b1001#4, some 1#1, some .asr, .op) := by decide
/-- The final record of W1, from the registers that its eighth record leaves. -/
theorem test_muFinal :
    exec .muFinal { State.reset with mu := { muDone with st := .final, n := 9, trace := muDone.trace.take 9 } } =
      .next { State.reset with mu := muDone } := rfl

/-! ### Single steps of DU (V-D1; the examples of R97, R98 and R107) -/

theorem test_div :
    duAfter (exec (.div 0b1011#4 0b0011#4) State.reset) = some (some 0#5, some 0b1011#4, some .init, .shift) := by decide
/-- `1101` is loaded as `01101`, not sign-extended (R97). -/
theorem test_div_divisor_zero_extended : (Du.start 0b1011#4 0b1101#4).m = some 0b01101#5 := by decide
theorem test_divZero :
    duAfter (exec (.divZero 0b0101#4) State.reset) = some (some 0#5, some 0b0101#4, some .error, .error) := by decide
theorem test_duShl :
    duAfter (exec .duShl (duAt .shift 0b00000#5 0b1011#4 0b00011#5 0#3)) =
      some (some 0b00001#5, some 0b0110#4, some .shl, .adjust) := by decide
theorem test_duShl_sign_lost :
    duAfter (exec .duShl (duAt .shift 0b10111#5 0b0101#4 0b01111#5 0#3)) =
      some (some 0b01110#5, some 0b1010#4, some .shl, .adjust) := by decide
theorem test_duSub :
    duAfter (exec .duSub (duAt .adjust 0b00001#5 0b0110#4 0b00011#5 0#3)) =
      some (some 0b11110#5, some 0b0110#4, some .sub, .setq0) := by decide
theorem test_duSub_large_divisor :
    duAfter (exec .duSub (duAt .adjust 0b00001#5 0b0000#4 0b01111#5 0#3)) =
      some (some 0b10010#5, some 0b0000#4, some .sub, .setq0) := by decide
theorem test_duAdd :
    duAfter (exec .duAdd (duAt .adjust 0b11100#5 0b0000#4 0b00011#5 0#3)) =
      some (some 0b11111#5, some 0b0000#4, some .add, .setq0) := by decide
theorem test_duAdd_carry_discarded :
    duAfter (exec .duAdd (duAt .adjust 0b11111#5 0b0000#4 0b00011#5 0#3)) =
      some (some 0b00010#5, some 0b0000#4, some .add, .setq0) := by decide
theorem test_duSetq0_negative_last :
    duAfter (exec .duSetq0 (duAt .setq0 0b11110#5 0b0110#4 0b00011#5 3#3)) =
      some (some 0b11110#5, some 0b0110#4, some .setq0, .restore) := by decide
theorem test_duSetq0_nonnegative :
    duAfter (exec .duSetq0 (duAt .setq0 0b00010#5 0b1000#4 0b00011#5 2#3)) =
      some (some 0b00010#5, some 0b1001#4, some .setq0, .shift) := by decide
theorem test_duRestore :
    duAfter (exec .duRestore (duAt .restore 0b11111#5 0b0000#4 0b00001#5 4#3)) =
      some (some 0b00000#5, some 0b0000#4, some .restore, .final) := by decide
theorem test_duRestore_quotient_kept :
    duAfter (exec .duRestore (duAt .restore 0b11110#5 0b0100#4 0b00011#5 4#3)) =
      some (some 0b00001#5, some 0b0100#4, some .restore, .final) := by decide
/-- The final record of W3, from the registers that its thirteenth record leaves. -/
theorem test_duFinal :
    exec .duFinal { State.reset with du := { duDone with st := .final, n := 13, trace := duDone.trace.take 13 } } =
      .next { State.reset with du := duDone } := rfl

/-! ### Status, refusal, results (V-S1, V-S5, R148) -/

theorem test_status_error : statusOf .du { State.reset with du := Du.startZero 0b0101#4 } = .status false false true := by decide
theorem test_refusal :
    exec (.mul 1#4 1#4) (muAt .shift 0b0011#4 0b0111#4 0#1 0b1101#4) =
      .next { muAt .shift 0b0011#4 0b0111#4 0#1 0b1101#4 with refusalMark := true } := rfl
theorem test_no_result_before_the_end :
    step (hostAt (.takeResult .mu) (muAt .shift 0b0011#4 0b0111#4 0#1 0b1101#4)) = .fault (.noResult .mu) := rfl
theorem test_reset_wins_over_step :
    step { muAt .shift 0b0011#4 0b0111#4 0#1 0b1101#4 with sched := [⟨.mu, true⟩] } = .next State.reset := rfl

/-! ### The transcriber (V-E2) -/

theorem test_text_mul : parseLine "MUL 1101, 0111".toList = .ok [.issue 0b011010111#9] := by decide
theorem test_text_short_operand : parseLine "MUL 101, 0111".toList = .error (.operandLength 1 3) := by decide
theorem test_text_long_operand : parseLine "DIV 1011, 00011".toList = .error (.operandLength 2 5) := by decide
theorem test_text_bad_digit : parseLine "MUL 1102, 0111".toList = .error (.operandChar 1 3 '2') := by decide
theorem test_text_lower_case : parseLine "mul 1101, 0111".toList = .error .unknownLine := by decide
theorem test_text_no_comma : parseLine "DIV 1011 0011".toList = .error .missingComma := by decide
theorem test_text_wait : parseLine "WAIT DU".toList = .ok [.wait .du] := by decide
theorem test_decimal : decimalTo4Bit (-8) = some 0b1000#4 ∧ decimalTo4Bit 8 = none := by decide

/-! ### Witnesses: a concrete state and operands that meet the hypotheses of each statement together -/

/-- Both units running. -/
def running : State := { State.reset with mu := Mu.start 0b1101#4 0b0111#4, du := Du.start 0b1011#4 0b0011#4 }

/-- Both units finished. -/
def finished : State := { State.reset with mu := muDone, du := duDone }

/-- Two finished units, then a command followed by `i` moments of MU and `j` of DU. -/
def issuing (w : Cmd) (i j : Nat) : State :=
  { finished with
    host := [.issue w]
    sched := ⟨.host, false⟩ :: (List.replicate i ⟨.mu, false⟩ ++ List.replicate j ⟨.du, false⟩) }

/-- DU in `ERROR`. -/
def inError : State := { State.reset with du := Du.startZero 0b0101#4 }

theorem witness_inv_running : running.Inv :=
  ⟨⟨by decide, by decide, by decide⟩, by decide, by decide, by decide⟩
theorem witness_inv_finished : finished.Inv :=
  ⟨⟨by decide, by decide, by decide⟩, by decide, by decide, by decide⟩
theorem witness_inv_error : inError.Inv :=
  ⟨⟨by decide, by decide, by decide⟩, by decide, by decide, by decide⟩

theorem witness_ResetMoveClearsBothUnits :
    (hostAt .reset running).host = [.reset] ∧ (hostAt .reset running).sched = [⟨.host, false⟩] := by decide
theorem witness_ResetWinsOverTheSameMoment :
    ∃ s : State, s.sched = [⟨.host, true⟩] ∧ s.host = [.issue 0x0D7#9] :=
  ⟨{ running with host := [.issue 0x0D7#9], sched := [⟨.host, true⟩] }, rfl, rfl⟩
theorem witness_LawsOfThePrimitives : 0 < 4 ∧ complement (BitVec.intMin 4) = 0b1000#4 := by decide
theorem witness_SignedReadingOfABitString : 0 < 5 ∧ sval (BitVec.intMin 5) = -16 := by decide
theorem witness_EveryCommandWordIsValid :
    (0 < 512 ∧ 511 < 512 ∧ 512 ≤ 512) ∧ decodeWord 0 = .ok (.mul 0#4 0#4) ∧ decodeWord 255 = .ok (.mul 15#4 15#4) ∧
    decodeWord 256 = .ok (.divZero 0#4) ∧ decodeWord 511 = .ok (.div 15#4 15#4) ∧ decodeWord 512 = .error (.notNineBits 512) := by
  decide
theorem witness_DecodeAndEncodeAgree :
    (Instr.div 0b1011#4 1#4).wellFormed = true ∧ decode (.cmd9 0x1B1#9) = .ok (.div 0b1011#4 1#4) := by decide
theorem witness_ControlPairSelectsTheOperation :
    let m := (muAt .op 0b0000#4 0b0111#4 0#1 0b1101#4).mu
    m.st = .op ∧ m.q = some 0b0111#4 ∧ m.qm1 = some 0#1 := by decide
theorem witness_ShiftedSignSelectsTheAdjust :
    let d := (duAt .adjust 0b10000#5 0b0110#4 0b00011#5 0#3).du
    d.st = .adjust ∧ d.a = some 0b10000#5 := by decide
theorem witness_MulStartsABoothRun :
    State.reset.mu.st = .idle ∧ finished.mu.st = .done ∧ running.mu.busy = true := by decide
theorem witness_DivStartsADivisionRun :
    1#4 ≠ 0#4 ∧ State.reset.du.st = .idle ∧ finished.du.st = .done ∧ inError.du.st = .error := by decide
theorem witness_DivByZeroEndsInError :
    State.reset.du.st = .idle ∧ finished.du.st = .done ∧ inError.du.st = .error := by decide
theorem witness_CommandToBusyUnitIsRefusedForGood :
    (running.mu.busy = true ∧ running.du.busy = true) ∧
    (∃ s t : State, step s = .next t ∧ s.refusalMark = true) ∧
    (∃ s t : State, step s = .next t ∧ t.refusalMark = true ∧ s.refusalMark = false) :=
  ⟨by decide, ⟨hostAt .reset { running with refusalMark := true }, _, rfl, rfl⟩,
    ⟨hostAt (.issue 0x011#9) running, _, rfl, rfl, rfl⟩⟩
/-- One word for each branch: MUL to a busy and to an idle unit, DIV by zero, DIV. -/
theorem witness_IssuingACommandWord :
    (hostAt (.issue 0x0D7#9) running).host = [.issue 0x0D7#9] ∧ (hostAt (.issue 0x0D7#9) running).sched = [⟨.host, false⟩] ∧
    running.mu.busy = true ∧ finished.mu.busy = false ∧ inError.du.busy = false ∧
    (0x100#9).getLsbD 8 = true ∧ (0x100#9).extractLsb' 0 4 = 0#4 ∧ (0x1FF#9).extractLsb' 0 4 ≠ 0#4 := by decide
theorem witness_BoothSubtractStep :
    let m := (muAt .op 0b0000#4 0b0111#4 0#1 0b1101#4).mu
    m.st = .op ∧ m.a = some 0b0000#4 ∧ m.q = some 0b0111#4 ∧ m.qm1 = some 0#1 ∧ m.m = some 0b1101#4 ∧
      (0b0111#4).getLsbD 0 = true := by decide
theorem witness_BoothAddStep :
    let m := (muAt .op 0b0000#4 0b0010#4 1#1 0b1101#4).mu
    m.st = .op ∧ m.a = some 0b0000#4 ∧ m.q = some 0b0010#4 ∧ m.qm1 = some 1#1 ∧ m.m = some 0b1101#4 ∧
      (0b0010#4).getLsbD 0 = false := by decide
theorem witness_BoothNoOperationSteps_00 :
    let m := (muAt .op 0b0000#4 0b0110#4 0#1 0b0011#4).mu
    m.st = .op ∧ m.a = some 0b0000#4 ∧ m.q = some 0b0110#4 ∧ m.qm1 = some 0#1 ∧ (0b0110#4).getLsbD 0 = false := by decide
theorem witness_BoothNoOperationSteps_11 :
    let m := (muAt .op 0b0001#4 0b1011#4 1#1 0b0011#4).mu
    m.st = .op ∧ m.a = some 0b0001#4 ∧ m.q = some 0b1011#4 ∧ m.qm1 = some 1#1 ∧ (0b1011#4).getLsbD 0 = true := by decide
theorem witness_BoothShiftStep :
    let m := (muAt .shift 0b0011#4 0b0111#4 0#1 0b1101#4).mu
    m.st = .shift ∧ m.a = some 0b0011#4 ∧ m.q = some 0b0111#4 ∧ m.qm1 = some 0#1 ∧ m.k = some 0#3 := by decide
theorem witness_BoothFinalStep :
    let m := (muAt .final 0b1110#4 0b1011#4 0#1 0b1101#4).mu
    m.st = .final ∧ m.a = some 0b1110#4 ∧ m.q = some 0b1011#4 ∧ m.qm1 = some 0#1 ∧ m.m = some 0b1101#4 ∧
      m.y = some 0b0111#4 := by decide
theorem witness_DivisionShiftStep :
    let d := (duAt .shift 0b10111#5 0b0101#4 0b01111#5 0#3).du
    d.st = .shift ∧ d.a = some 0b10111#5 ∧ d.q = some 0b0101#4 := by decide
theorem witness_AdjustSubtractStep :
    let d := (duAt .adjust 0b00001#5 0b0110#4 0b00011#5 0#3).du
    d.st = .adjust ∧ d.a = some 0b00001#5 ∧ d.q = some 0b0110#4 ∧ d.m = some 0b00011#5 ∧ (0b00001#5).getLsbD 4 = false := by
  decide
theorem witness_AdjustAddStep :
    let d := (duAt .adjust 0b11100#5 0b0000#4 0b00011#5 0#3).du
    d.st = .adjust ∧ d.a = some 0b11100#5 ∧ d.q = some 0b0000#4 ∧ d.m = some 0b00011#5 ∧ (0b11100#5).getLsbD 4 = true := by
  decide
theorem witness_SetQuotientBitStep :
    let d := (duAt .setq0 0b11110#5 0b0110#4 0b00011#5 3#3).du
    d.st = .setq0 ∧ d.a = some 0b11110#5 ∧ d.q = some 0b0110#4 ∧ d.k = some 3#3 ∧
      (0b11110#5).getLsbD 4 = true ∧ (0b0110#4).getLsbD 0 = false := by decide
theorem witness_RestoreStep :
    let d := (duAt .restore 0b11111#5 0b0000#4 0b00001#5 4#3).du
    d.st = .restore ∧ d.a = some 0b11111#5 ∧ d.q = some 0b0000#4 ∧ d.m = some 0b00001#5 := by decide
theorem witness_DivisionFinalStep :
    let d := (duAt .final 0b00010#5 0b0011#4 0b00011#5 4#3).du
    d.st = .final ∧ d.a = some 0b00010#5 ∧ d.q = some 0b0011#4 ∧ d.m = some 0b00011#5 ∧ d.x = some 0b1011#4 := by decide
/-- Idle units are outside every running state; in `OP` and `ADJUST` the other rows are the ones refused. -/
theorem witness_MicroStepOutsideItsStateIsRefused :
    (State.reset.mu.st ≠ .op ∧ State.reset.mu.st ≠ .shift ∧ State.reset.mu.st ≠ .final) ∧
    (State.reset.du.st ≠ .shift ∧ State.reset.du.st ≠ .adjust ∧ State.reset.du.st ≠ .setq0 ∧ State.reset.du.st ≠ .restore ∧
      State.reset.du.st ≠ .final) ∧
    ((muAt .op 0b0000#4 0b0111#4 0#1 0b1101#4).mu.st = .op ∧ encode .muAdd ≠ .muPair ((0b0111#4).extractLsb' 0 1 ++ 0#1)) ∧
    ((duAt .adjust 0b00001#5 0b0110#4 0b00011#5 0#3).du.st = .adjust ∧ encode .duAdd ≠ .duAdjust ((0b00001#5).extractLsb' 4 1)) := by
  decide
/-- No run reaches these states (the statement says what the model does in them): one register is missing in each. -/
theorem witness_ReadingUnwrittenRegisterFaults :
    let u := fun st => (muAt st 0b0000#4 0b0111#4 0#1 0b1101#4).mu
    let v := fun st => (duAt st 0b00001#5 0b0110#4 0b00011#5 0#3).du
    (let m := { u .op with a := none }
     m.st = .op ∧ m.q = some 0b0111#4 ∧ m.a = none) ∧
    (let m := { u .op with m := none }
     m.st = .op ∧ m.q = some 0b0111#4 ∧ m.qm1 = some 0#1 ∧ (0b0111#4).extractLsb' 0 1 ≠ 0#1 ∧ m.m = none) ∧
    (let m := { u .shift with k := none }
     m.st = .shift ∧ m.a = some 0b0000#4 ∧ m.k = none) ∧
    (let m := { u .final with y := none }
     m.st = .final ∧ m.a = some 0b0000#4 ∧ m.y = none) ∧
    (let d := { v .shift with q := none }
     d.st = .shift ∧ d.a = some 0b00001#5 ∧ d.q = none) ∧
    (let d := { v .adjust with q := none }
     d.st = .adjust ∧ d.a = some 0b00001#5 ∧ d.q = none) ∧
    (let d := { v .setq0 with k := none }
     d.st = .setq0 ∧ d.a = some 0b00001#5 ∧ d.k = none) ∧
    (let d := { v .restore with q := none }
     d.st = .restore ∧ d.a = some 0b00001#5 ∧ d.q = none) ∧
    (let d := { v .final with x := none }
     d.st = .final ∧ d.a = some 0b00001#5 ∧ d.x = none) := by decide
theorem witness_BoothStepFrame :
    Instr.muSub.unit = .mu ∧ Instr.muSub.isCommand = false ∧ (∃ t, exec .muSub running = .next t) ∧
    ∃ t, exec (.mul 1#4 1#4) finished = .next t := ⟨rfl, rfl, ⟨_, rfl⟩, _, rfl⟩
theorem witness_DivisionStepFrame :
    Instr.duShl.unit = .du ∧ Instr.duShl.isCommand = false ∧ (∃ t, exec .duShl running = .next t) ∧
    ∃ t, exec (.divZero 1#4) finished = .next t := ⟨rfl, rfl, ⟨_, rfl⟩, _, rfl⟩
theorem witness_StepRunsTheSelectedInstruction_scheduled :
    (turnOf .mu running).sched = [⟨.mu, false⟩] ∧ (turnOf .mu running).mu.codeWord = .ok (.muPair 0b10#2) ∧
    decode (.muPair 0b10#2) = .ok .muSub ∧
    (turnOf .du running).sched = [⟨.du, false⟩] ∧ (turnOf .du running).du.codeWord = .ok (.duSeq .shift) ∧
    decode (.duSeq .shift) = .ok .duShl ∧
    (hostAt (.issue 0x150#9) running).sched = [⟨.host, false⟩] ∧ (hostAt (.issue 0x150#9) running).host = [.issue 0x150#9] ∧
    decode (.cmd9 0x150#9) = .ok (.divZero 0b0101#4) :=
  ⟨rfl, rfl, rfl, rfl, rfl, rfl, rfl, rfl, rfl⟩
theorem witness_StepRunsTheSelectedInstruction_past_the_schedule :
    (let s := { running with du := Du.blank }
     s.sched = [] ∧ s.host = [] ∧ s.mu.busy = true ∧ s.du.busy = false ∧ s.mu.codeWord = .ok (.muPair 0b10#2) ∧
      decode (.muPair 0b10#2) = .ok .muSub) ∧
    (let s := { running with mu := Mu.blank }
     s.sched = [] ∧ s.host = [] ∧ s.mu.busy = false ∧ s.du.busy = true ∧ s.du.codeWord = .ok (.duSeq .shift) ∧
      decode (.duSeq .shift) = .ok .duShl) :=
  ⟨⟨rfl, rfl, rfl, rfl, rfl, rfl⟩, rfl, rfl, rfl, rfl, rfl, rfl⟩
theorem witness_QuiescentUnitTakesNoStep :
    ((turnOf .mu finished).sched = [⟨.mu, false⟩] ∧ (turnOf .mu finished).mu.busy = false) ∧
    ((turnOf .du inError).sched = [⟨.du, false⟩] ∧ (turnOf .du inError).du.busy = false) := by decide
theorem witness_BoothTransitionTable :
    State.reset.mu.st = .idle ∧ running.mu.st = .op ∧ (turnOf .mu running).Inv ∧ (turnOf .mu running).sched = [⟨.mu, false⟩] ∧
      (turnOf .mu finished).Inv ∧ (turnOf .mu finished).sched = [⟨.mu, false⟩] :=
  ⟨rfl, rfl, witness_inv_running, rfl, witness_inv_finished, rfl⟩
theorem witness_DivisionTransitionTable :
    inError.du.st = .error ∧ 1#4 ≠ 0#4 ∧ running.du.st = .shift ∧ (turnOf .du running).Inv ∧
      (turnOf .du running).sched = [⟨.du, false⟩] ∧ (turnOf .du inError).Inv ∧ (turnOf .du inError).sched = [⟨.du, false⟩] :=
  ⟨rfl, by decide, rfl, witness_inv_running, rfl, witness_inv_error, rfl⟩
theorem witness_EveryStepKeepsTheInvariant : (turnOf .mu running).Inv ∧ ∃ t, step (turnOf .mu running) = .next t :=
  ⟨witness_inv_running, _, rfl⟩
/-- Each outcome occurs: a step, and the fault of a result that is not there. -/
theorem witness_NoStepReadsAnUnwrittenRegister :
    ((turnOf .du running).Inv ∧ ∃ t, step (turnOf .du running) = .next t) ∧
    ((hostAt (.takeResult .du) inError).Inv ∧ step (hostAt (.takeResult .du) inError) = .fault (.noResult .du)) :=
  ⟨⟨witness_inv_running, _, rfl⟩, witness_inv_error, rfl⟩
/-- A start step changes the operand registers of its unit. -/
theorem witness_OperandRegistersHoldThroughARun :
    ∃ s t : State, step s = .next t ∧ t.mu.m ≠ s.mu.m ∧ s.mu.busy = false :=
  ⟨hostAt (.issue 0x033#9) finished, _, rfl, by decide, rfl⟩
theorem witness_TraceOnlyGrowsWithinARun :
    ∃ s t : State, step s = .next t ∧ s.mu.busy = true ∧ t.mu.trace ≠ s.mu.trace :=
  ⟨turnOf .mu running, _, rfl, rfl, by decide⟩
theorem witness_ErrorIsTerminalForItsRun :
    inError.Inv ∧ inError.du.st = .error ∧
    (hostAt (.takeResult .du) inError).sched = [⟨.host, false⟩] ∧ (hostAt (.takeResult .du) inError).host = [.takeResult .du] ∧
    (turnOf .du inError).sched = [⟨.du, false⟩] ∧ ∃ t, step (hostAt (.issue 0x1B3#9) inError) = .next t :=
  ⟨witness_inv_error, rfl, rfl, rfl, rfl, _, rfl⟩
theorem witness_ReadsAndWaitsChangeNoUnit :
    (hostAt (.readStatus .mu) running).sched = [⟨.host, false⟩] ∧ (hostAt (.readStatus .mu) running).host = [.readStatus .mu] ∧
    (hostAt (.readStatus .du) running).host = [.readStatus .du] ∧ (hostAt (.readTrace .mu) running).host = [.readTrace .mu] ∧
    (hostAt (.readTrace .du) running).host = [.readTrace .du] ∧
    (hostAt (.wait .mu) running).host = [.wait .mu] ∧ running.busy .mu = true ∧ finished.busy .mu = false := by decide
theorem witness_ResultIsTakenFromAFinishedRun :
    (hostAt (.takeResult .mu) finished).Inv ∧ (hostAt (.takeResult .mu) finished).sched = [⟨.host, false⟩] ∧
    (hostAt (.takeResult .mu) finished).host = [.takeResult .mu] ∧ (hostAt (.takeResult .du) finished).host = [.takeResult .du] ∧
    finished.mu.st = .done ∧ finished.du.st = .done ∧ running.mu.st ≠ .done ∧ inError.du.st ≠ .done :=
  ⟨witness_inv_finished, rfl, rfl, rfl, rfl, rfl, by decide, by decide⟩

/-- The moments of MU in `issuing`. -/
def muTurns (i : Nat) : List Turn := List.replicate i ⟨.mu, false⟩

/-- The moments of DU in `issuing`. -/
def duTurns (j : Nat) : List Turn := List.replicate j ⟨.du, false⟩

theorem witness_issuing_inv (w : Cmd) (i j : Nat) : (issuing w i j).Inv := witness_inv_finished

/-- The multiplicand `1000` (R94's second clause) and `1001` next to it. -/
theorem witness_BoothProductLaw :
    (issuing 0x081#9 9 0).mu.busy = false ∧ (issuing 0x081#9 9 0).IssuesThen (0#1 ++ 0b1000#4 ++ 1#4) (muTurns 9) [] ∧
    9 ≤ turnsOf .mu (muTurns 9) ∧ (issuing 0x099#9 9 0).IssuesThen (0#1 ++ 0b1001#4 ++ 0b1001#4) (muTurns 9) [] := by decide
theorem witness_BoothRunRecords :
    (issuing 0x0D7#9 9 0).mu.busy = false ∧ (issuing 0x0D7#9 9 0).IssuesThen (0#1 ++ 0b1101#4 ++ 0b0111#4) (muTurns 9) [] ∧
    9 ≤ turnsOf .mu (muTurns 9) := by decide
/-- The divisors 1 and 8, the ends of the range. -/
theorem witness_DivisionLawForDivisorsUpToEight :
    (issuing 0x1B1#9 0 14).du.busy = false ∧ 1 ≤ (1#4).toNat ∧ (8#4).toNat ≤ 8 ∧
    (issuing 0x1B1#9 0 14).IssuesThen (1#1 ++ 0b1011#4 ++ 1#4) (duTurns 14) [] ∧
    (issuing 0x1B8#9 0 14).IssuesThen (1#1 ++ 0b1011#4 ++ 8#4) (duTurns 14) [] ∧ 14 ≤ turnsOf .du (duTurns 14) := by decide
/-- Divisor 9 with the dividends 8 (right) and 7 (wrong), and divisor 15. -/
theorem witness_DivisionByNineToFifteen :
    (issuing 0x189#9 0 14).du.busy = false ∧ 9 ≤ (9#4).toNat ∧ 9 ≤ (15#4).toNat ∧
    (issuing 0x189#9 0 14).IssuesThen (1#1 ++ 8#4 ++ 9#4) (duTurns 14) [] ∧
    (issuing 0x179#9 0 14).IssuesThen (1#1 ++ 7#4 ++ 9#4) (duTurns 14) [] ∧
    (issuing 0x10F#9 0 14).IssuesThen (1#1 ++ 0#4 ++ 15#4) (duTurns 14) [] ∧ 14 ≤ turnsOf .du (duTurns 14) := by decide
theorem witness_DivisionRunRecords :
    (issuing 0x101#9 0 14).du.busy = false ∧ 1#4 ≠ 0#4 ∧
    (issuing 0x101#9 0 14).IssuesThen (1#1 ++ 0#4 ++ 1#4) (duTurns 14) [] ∧ 14 ≤ turnsOf .du (duTurns 14) := by decide
theorem witness_DivideByZeroRunHasOneRecord :
    (issuing 0x150#9 0 3).du.busy = false ∧ (issuing 0x150#9 0 3).IssuesThen (1#1 ++ 0b0101#4 ++ 0#4) (duTurns 3) [] := by decide
theorem witness_EveryRunEndsWithinFifteenSteps :
    running.Inv ∧ running.busy .mu = true ∧ running.busy .du = true ∧
    ({ running with sched := muTurns 15 } : State).sched = muTurns 15 ++ [] ∧ UnitTurns (muTurns 15) ∧ UnitTurns (duTurns 15) ∧
    15 ≤ turnsOf (unitAgent .mu) (muTurns 15) ∧ 15 ≤ turnsOf (unitAgent .du) (duTurns 15) :=
  ⟨witness_inv_running, by decide⟩
theorem witness_FreeScheduleComesToRest : running.Inv ∧ running.sched = [] ∧ running.host = [] :=
  ⟨witness_inv_running, rfl, rfl⟩
theorem witness_EndStateIsIndependentOfInterleaving :
    running.Inv ∧ UnitTurns (muTurns 2 ++ duTurns 3) ∧ UnitTurns (duTurns 3 ++ muTurns 2) ∧
    turnsOf .mu (muTurns 2 ++ duTurns 3) = turnsOf .mu (duTurns 3 ++ muTurns 2) ∧
    turnsOf .du (muTurns 2 ++ duTurns 3) = turnsOf .du (duTurns 3 ++ muTurns 2) :=
  ⟨witness_inv_running, by decide⟩
/-- Each clause of the operand's text: a well-formed operand, one too short, and one with a wrong character. -/
theorem witness_MalformedOperandIsRefused :
    parseOperand 1 ['1', '1', '0', '1'] = .ok 0b1101#4 ∧ ['1', '0', '1'].length ≠ 4 ∧
    parseOperand 2 ['1', '0', 'x', '1'] = .error (.operandChar 2 2 'x') := by decide

end Sys2Proof.Machine.Tests
end

/-! ## The units' moments

A unit's moment reads and writes that unit alone (41_booth.md R89, 42_division.md R110). So a moment is described by what it makes of
the unit, `Mu.MovesTo` and `Du.MovesTo`, and moments of different units commute. -/

namespace Sys2Proof.Machine

/-- At a moment of MU, MU goes from `m` to `m'`, whatever the rest of the state is, and nothing else changes. -/
def Mu.MovesTo (m m' : Mu) : Prop := ∀ s : State, s.mu = m → runAgent .mu s = .next { s with mu := m' }

/-- At a moment of DU, DU goes from `d` to `d'`, whatever the rest of the state is, and nothing else changes. -/
def Du.MovesTo (d d' : Du) : Prop := ∀ s : State, s.du = d → runAgent .du s = .next { s with du := d' }

/-! ### What the control points select -/

/-- In a state other than `OP`, MU's sequencer state alone selects the step (R90). -/
theorem runAgent_mu_of_ne_op {s : State} (h : s.mu.st ≠ .op) : runAgent .mu s = runCode (.muSeq s.mu.st) s := by
  simp only [runAgent_mu, Mu.codeWord]
  cases hst : s.mu.st with
  | op => exact absurd hst h
  | idle | shift | final | done => rfl

/-- In `OP`, MU's control pair selects the step (R83). -/
theorem runAgent_mu_of_op {s : State} {q : Nibble} {p : Bit} (hst : s.mu.st = .op) (hq : s.mu.q = some q)
    (hp : s.mu.qm1 = some p) : runAgent .mu s = exec (decodePair (controlPair q p)) s := by
  simp only [runAgent_mu, Mu.codeWord, hst, hq, hp]
  rfl

/-- In `ADJUST`, the sign of `A` selects DU's step (R59). -/
theorem runAgent_du_of_adjust {s : State} {a : Acc} (hst : s.du.st = .adjust) (ha : s.du.a = some a) :
    runAgent .du s = exec (decodeAdjust (signBit a)) s := by
  simp only [runAgent_du, Du.codeWord, hst, ha]
  rfl

/-- In `RESTORE`, DU takes the restore step (R106). -/
theorem runAgent_du_of_restore {s : State} (hst : s.du.st = .restore) : runAgent .du s = execDuRestore s := by
  simp only [runAgent_du, Du.codeWord, hst]
  rfl

/-- In a state other than `ADJUST` and `RESTORE`, DU's sequencer state alone selects the step (R109). -/
theorem runAgent_du_of_seq {s : State} (ha : s.du.st ≠ .adjust) (hr : s.du.st ≠ .restore) :
    runAgent .du s = runCode (.duSeq s.du.st) s := by
  simp only [runAgent_du, Du.codeWord]
  cases hst : s.du.st with
  | adjust => exact absurd hst ha
  | restore => exact absurd hst hr
  | idle | shift | setq0 | final | done | error => rfl

/-! ### MU's moments, state by state -/

section MuMoves
variable {m : Mu} {a q x y : Nibble} {p : Bit} {k : Counter}

/-- A quiescent MU stays as it is (10_state.md R32). -/
theorem Mu.movesTo_self (h : m.busy = false) : m.MovesTo m := by
  rintro s rfl
  rcases s.mu.busy_eq_false_iff.mp h with hst | hst <;>
  · rw [runAgent_mu_of_ne_op (by simp [hst]), hst]
    rfl

/-- In `OP` one of the operation steps runs: it writes `A` and goes on to `SHIFT` (R84, R85, R86). -/
theorem Mu.movesTo_of_op (hst : m.st = .op) (ha : m.a = some a) (hq : m.q = some q) (hp : m.qm1 = some p)
    (hx : m.m = some x) :
    ∃ kind a', m.MovesTo { m.emit kind a' q p none with a := some a', st := .shift } := by
  suffices ∃ kind a', ∀ s : State, s.mu = m → runAgent .mu s = muOperation kind a' q p s by
    obtain ⟨kind, a', h⟩ := this
    refine ⟨kind, a', ?_⟩
    rintro s rfl
    exact h s rfl
  by_cases hsub : controlPair q p = 0b10#2
  · refine ⟨.sub, sub a x, ?_⟩
    rintro s rfl
    rw [runAgent_mu_of_op hst hq hp]
    simp [decodePair, exec, execMuSub, inMuPair, inMuState, hst, ha, hq, hp, hx, hsub]
  by_cases hadd : controlPair q p = 0b01#2
  · refine ⟨.add, add a x, ?_⟩
    rintro s rfl
    rw [runAgent_mu_of_op hst hq hp]
    simp [decodePair, exec, execMuAdd, inMuPair, inMuState, hst, ha, hq, hp, hx, hadd]
  refine ⟨.nop, a, ?_⟩
  rintro s rfl
  rw [runAgent_mu_of_op hst hq hp]
  by_cases hnop : controlPair q p = 0b00#2
  · simp [decodePair, exec, execMuNop00, muNoOperation, inMuPair, inMuState, hst, ha, hq, hp, hnop]
  · have hnop' : controlPair q p = 0b11#2 := by
      generalize controlPair q p = c at hsub hadd hnop
      revert c; decide
    simp [decodePair, exec, execMuNop11, muNoOperation, inMuPair, inMuState, hst, ha, hq, hp, hnop']

/-- In `SHIFT` the shift step runs (R87). -/
theorem Mu.movesTo_of_shift (hst : m.st = .shift) (ha : m.a = some a) (hq : m.q = some q) (hp : m.qm1 = some p)
    (hk : m.k = some k) :
    m.MovesTo { m.emit .asr (asr a q p).1 (asr a q p).2.1 (asr a q p).2.2 none with
      a := some (asr a q p).1
      q := some (asr a q p).2.1
      qm1 := some (asr a q p).2.2
      k := some (k + 1#3)
      st := if k + 1#3 = Config.iterations then .final else .op } := by
  rintro s rfl
  rw [runAgent_mu_of_ne_op (by simp [hst]), hst, runCode_ok rfl]
  simp [exec, execMuAsr, inMuState, hst, ha, hq, hp, hk]

/-- In `FINAL` the final record is left (R88). -/
theorem Mu.movesTo_of_final (hst : m.st = .final) (ha : m.a = some a) (hq : m.q = some q) (hp : m.qm1 = some p)
    (hx : m.m = some x) (hy : m.y = some y) :
    m.MovesTo { m.emit .final a q p (some
      { p := product a q, pDec := sval (product a q), mDec := sval x, yDec := sval y }) with st := .done } := by
  rintro s rfl
  rw [runAgent_mu_of_ne_op (by simp [hst]), hst, runCode_ok rfl]
  simp [exec, execMuFinal, inMuState, hst, ha, hq, hp, hx, hy]

end MuMoves

/-! ### DU's moments, state by state -/

section DuMoves
variable {d : Du} {a m : Acc} {q x : Nibble} {k : Counter}

/-- A quiescent DU stays as it is (10_state.md R32). -/
theorem Du.movesTo_self (h : d.busy = false) : d.MovesTo d := by
  rintro s rfl
  rcases s.du.busy_eq_false_iff.mp h with hst | hst | hst <;>
  · rw [runAgent_du_of_seq (by simp [hst]) (by simp [hst]), hst]
    rfl

/-- In `SHIFT` the shift step runs (R100). -/
theorem Du.movesTo_of_shift (hst : d.st = .shift) (ha : d.a = some a) (hq : d.q = some q) :
    d.MovesTo { d.emit .shl (shl a q).1 (shl a q).2 none with
      a := some (shl a q).1, q := some (shl a q).2, st := .adjust } := by
  rintro s rfl
  rw [runAgent_du_of_seq (by simp [hst]) (by simp [hst]), hst, runCode_ok rfl]
  simp [exec, execDuShl, inDuState, hst, ha, hq]

/-- In `ADJUST` the divisor is subtracted or added, by the sign of `A`; `SETQ0` is next (R101, R102). -/
theorem Du.movesTo_of_adjust (hst : d.st = .adjust) (ha : d.a = some a) (hq : d.q = some q) (hm : d.m = some m) :
    ∃ kind a', d.MovesTo { d.emit kind a' q none with a := some a', st := .setq0 } := by
  by_cases hs : signBit a = 0#1
  · refine ⟨.sub, sub a m, ?_⟩
    rintro s rfl
    rw [runAgent_du_of_adjust hst ha]
    simp [decodeAdjust, exec, execDuSub, inDuAdjust, inDuState, duAdjustStep, hst, ha, hq, hm, hs]
  · have hs' := bit_eq_one_of_ne_zero _ hs
    refine ⟨.add, add a m, ?_⟩
    rintro s rfl
    rw [runAgent_du_of_adjust hst ha]
    simp [decodeAdjust, exec, execDuAdd, inDuAdjust, inDuState, duAdjustStep, hst, ha, hq, hm, hs']

/-- In `SETQ0` the quotient bit is set and the iteration ends (R104). -/
theorem Du.movesTo_of_setq0 (hst : d.st = .setq0) (ha : d.a = some a) (hq : d.q = some q) (hk : d.k = some k) :
    d.MovesTo { d.emit .setq0 a (withQ0 q (quotientBit a)) none with
      q := some (withQ0 q (quotientBit a))
      k := some (k + 1#3)
      st := afterSetQ0 (k + 1#3) a } := by
  rintro s rfl
  rw [runAgent_du_of_seq (by simp [hst]) (by simp [hst]), hst, runCode_ok rfl]
  simp [exec, execDuSetq0, inDuState, hst, ha, hq, hk]

/-- In `RESTORE` the divisor is added back (R106). -/
theorem Du.movesTo_of_restore (hst : d.st = .restore) (ha : d.a = some a) (hq : d.q = some q) (hm : d.m = some m) :
    d.MovesTo { d.emit .restore (add a m) q none with a := some (add a m), st := .final } := by
  rintro s rfl
  rw [runAgent_du_of_restore hst]
  simp [execDuRestore, inDuState, hst, ha, hq, hm]

/-- In `FINAL` the final record is left (R107). -/
theorem Du.movesTo_of_final (hst : d.st = .final) (ha : d.a = some a) (hq : d.q = some q) (hm : d.m = some m)
    (hx : d.x = some x) :
    d.MovesTo { d.emit .final a q (some
      { xDec := sval x, mDec := sval m, qDec := sval q, rDec := sval a }) with st := .done } := by
  rintro s rfl
  rw [runAgent_du_of_seq (by simp [hst]) (by simp [hst]), hst, runCode_ok rfl]
  simp [exec, execDuFinal, inDuState, hst, ha, hq, hm, hx]

end DuMoves

end Sys2Proof.Machine

/-! ## Moments left in a run

Every unit keeps the two facts its coming moments need: a running unit's registers hold values, and an iteration that has begun is
one of the four. Each moment of a running unit then brings the end of its run nearer. -/

namespace Sys2Proof.Machine

/-- What a moment of MU needs and keeps: while MU runs, its registers hold values and its iteration is one of the four. -/
def Mu.Sound (m : Mu) : Prop := m.busy = true → m.Live ∧ (m.st = .op ∨ m.st = .shift → m.iteration ≤ 3)

/-- What a moment of DU needs and keeps: while DU runs, its registers hold values and its iteration is one of the four. -/
def Du.Sound (d : Du) : Prop :=
  d.busy = true → d.Live ∧ (d.st = .shift ∨ d.st = .adjust ∨ d.st = .setq0 → d.iteration ≤ 3)

/-- How many moments MU's run still needs: two per iteration and one for the final record (R90). -/
def Mu.remaining (m : Mu) : Nat :=
  match m.st with
  | .idle => 0
  | .op => 2 * (3 - m.iteration) + 3
  | .shift => 2 * (3 - m.iteration) + 2
  | .final => 1
  | .done => 0

/-- How many moments DU's run still needs at most: three per iteration, one for the restore step, one for the final record
(R109). -/
def Du.remaining (d : Du) : Nat :=
  match d.st with
  | .idle => 0
  | .shift => 3 * (3 - d.iteration) + 5
  | .adjust => 3 * (3 - d.iteration) + 4
  | .setq0 => 3 * (3 - d.iteration) + 3
  | .restore => 2
  | .final => 1
  | .done => 0
  | .error => 0

/-- The counter does not wrap in the iterations that a run makes (R23). -/
theorem counter_succ_toNat {k : Counter} (h : k.toNat ≤ 3) : (k + 1#3).toNat = k.toNat + 1 := by
  bv_omega

/-- MU runs exactly while its run still needs a moment. -/
theorem Mu.busy_iff_remaining_pos (m : Mu) : m.busy = true ↔ 0 < m.remaining := by
  unfold Mu.busy Mu.remaining; cases m.st <;> simp

/-- DU runs exactly while its run still needs a moment. -/
theorem Du.busy_iff_remaining_pos (d : Du) : d.busy = true ↔ 0 < d.remaining := by
  unfold Du.busy Du.remaining; cases d.st <;> simp

/-- A run of MU never needs more than the nine moments after its start step (R92). -/
theorem Mu.remaining_le (m : Mu) : m.remaining ≤ 9 := by
  unfold Mu.remaining; cases m.st <;> simp <;> omega

/-- A run of DU never needs more than the fourteen moments after its start step (R111, R117). -/
theorem Du.remaining_le (d : Du) : d.remaining ≤ 14 := by
  unfold Du.remaining; cases d.st <;> simp <;> omega

/-- MU of the invariant can take its moments. -/
theorem Mu.Wf.sound {m : Mu} (h : m.Wf) : m.Sound := by
  obtain ⟨⟨-, hlive⟩, -, hop, hshift, -, -⟩ := h
  intro hb
  refine ⟨hlive ?_, ?_⟩
  · rintro hst; simp [Mu.busy, hst] at hb
  · rintro (hst | hst)
    · exact (hop hst).1
    · exact (hshift hst).1

/-- DU of the invariant can take its moments. -/
theorem Du.Wf.sound {d : Du} (h : d.Wf) : d.Sound := by
  obtain ⟨⟨-, hregs⟩, -, hshift, hadjust, hsetq0, -, -, -⟩ := h
  intro hb
  refine ⟨(hregs ?_).1, ?_⟩
  · rintro hst; simp [Du.busy, hst] at hb
  · rintro (hst | hst | hst)
    · exact (hshift hst).1
    · exact (hadjust hst).1
    · exact (hsetq0 hst).1

/-- The last iteration is the one whose shift step brings the counter to 4 (R87). -/
theorem counter_succ_eq_iterations_iff {k : Counter} (h : k.toNat ≤ 3) : k + 1#3 = Config.iterations ↔ k.toNat = 3 := by
  rw [← BitVec.toNat_inj, counter_succ_toNat h]
  simp [Config.iterations]

/-- The set-Q0 step of every iteration but the last leads to another one (R104). -/
theorem afterSetQ0_eq_shift {k : Counter} (h : k.toNat < 3) (a : Acc) : afterSetQ0 (k + 1#3) a = .shift := by
  have hlt : k + 1#3 < Config.iterations := by
    rw [BitVec.lt_def, counter_succ_toNat (by omega)]
    simp [Config.iterations]; omega
  rw [afterSetQ0, if_pos hlt]

/-- The set-Q0 step of the last iteration leads to the restore step or to the final record (R104, R61). -/
theorem afterSetQ0_eq_restore_or_final {k : Counter} (h : k.toNat = 3) (a : Acc) :
    afterSetQ0 (k + 1#3) a = .restore ∨ afterSetQ0 (k + 1#3) a = .final := by
  have hge : ¬ k + 1#3 < Config.iterations := by
    rw [BitVec.lt_def, counter_succ_toNat h.le]
    simp [Config.iterations, h]
  rw [afterSetQ0, if_neg hge]
  exact ite_eq_or_eq ..

/-- Every moment of a sound MU goes on, keeps it sound, and brings the end of its run one moment nearer. -/
theorem Mu.Sound.exists_movesTo {m : Mu} (h : m.Sound) :
    ∃ m', m.MovesTo m' ∧ m'.Sound ∧ m'.remaining ≤ m.remaining - 1 := by
  cases hb : m.busy with
  | false =>
    have hzero : ¬ 0 < m.remaining := by rw [← m.busy_iff_remaining_pos, hb]; simp
    exact ⟨m, Mu.movesTo_self hb, h, by omega⟩
  | true =>
    obtain ⟨hlive, hiter⟩ := h hb
    simp only [Mu.Live, Option.isSome_iff_exists] at hlive
    obtain ⟨⟨a, ha⟩, ⟨q, hq⟩, ⟨p, hp⟩, ⟨x, hx⟩, ⟨y, hy⟩, ⟨k, hk⟩⟩ := hlive
    simp only [Mu.iteration, hk, Option.getD_some] at hiter
    rcases m.busy_iff.mp hb with hst | hst | hst
    · obtain ⟨kind, a', hmove⟩ := Mu.movesTo_of_op hst ha hq hp hx
      refine ⟨_, hmove, fun _ => ?_, ?_⟩
      · simpa [Mu.Live, hq, hp, hx, hy, hk, Mu.iteration] using hiter (.inl hst)
      · simp [Mu.remaining, hst, Mu.iteration]
    · have hk3 := hiter (.inr hst)
      have hmove := Mu.movesTo_of_shift hst ha hq hp hk
      by_cases hlast : k.toNat = 3
      · rw [if_pos ((counter_succ_eq_iterations_iff hk3).mpr hlast)] at hmove
        exact ⟨_, hmove, fun _ => by simp [Mu.Live, hx, hy], by simp [Mu.remaining, hst]⟩
      · rw [if_neg (mt (counter_succ_eq_iterations_iff hk3).mp hlast)] at hmove
        refine ⟨_, hmove, fun _ => ?_, ?_⟩
        · simp [Mu.Live, hx, hy, Mu.iteration, counter_succ_toNat hk3]
          omega
        · simp [Mu.remaining, hst, Mu.iteration, hk, counter_succ_toNat hk3]
          omega
    · exact ⟨_, Mu.movesTo_of_final hst ha hq hp hx hy, by simp [Mu.Sound, Mu.busy], by simp [Mu.remaining]⟩

/-- Every moment of a sound DU goes on, keeps it sound, and brings the end of its run nearer. -/
theorem Du.Sound.exists_movesTo {d : Du} (h : d.Sound) :
    ∃ d', d.MovesTo d' ∧ d'.Sound ∧ d'.remaining ≤ d.remaining - 1 := by
  cases hb : d.busy with
  | false =>
    have hzero : ¬ 0 < d.remaining := by rw [← d.busy_iff_remaining_pos, hb]; simp
    exact ⟨d, Du.movesTo_self hb, h, by omega⟩
  | true =>
    obtain ⟨hlive, hiter⟩ := h hb
    simp only [Du.Live, Option.isSome_iff_exists] at hlive
    obtain ⟨⟨a, ha⟩, ⟨q, hq⟩, ⟨m, hm⟩, ⟨x, hx⟩, ⟨k, hk⟩⟩ := hlive
    simp only [Du.iteration, hk, Option.getD_some] at hiter
    rcases d.busy_iff.mp hb with hst | hst | hst | hst | hst
    · refine ⟨_, Du.movesTo_of_shift hst ha hq, fun _ => ?_, ?_⟩
      · simpa [Du.Live, hm, hx, hk, Du.iteration] using hiter (.inl hst)
      · simp [Du.remaining, hst, Du.iteration]
    · obtain ⟨kind, a', hmove⟩ := Du.movesTo_of_adjust hst ha hq hm
      refine ⟨_, hmove, fun _ => ?_, ?_⟩
      · simpa [Du.Live, hq, hm, hx, hk, Du.iteration] using hiter (.inr (.inl hst))
      · simp [Du.remaining, hst, Du.iteration]
    · have hk3 := hiter (.inr (.inr hst))
      have hmove := Du.movesTo_of_setq0 hst ha hq hk
      by_cases hlast : k.toNat = 3
      · rcases afterSetQ0_eq_restore_or_final hlast a with hnext | hnext <;>
        · rw [hnext] at hmove
          exact ⟨_, hmove, fun _ => by simp [Du.Live, ha, hm, hx], by simp [Du.remaining, hst]⟩
      · rw [afterSetQ0_eq_shift (by omega) a] at hmove
        refine ⟨_, hmove, fun _ => ?_, ?_⟩
        · simp [Du.Live, ha, hm, hx, Du.iteration, counter_succ_toNat hk3]
          omega
        · simp [Du.remaining, hst, Du.iteration, hk, counter_succ_toNat hk3]
          omega
    · exact ⟨_, Du.movesTo_of_restore hst ha hq hm, fun _ => by simp [Du.Live, hq, hm, hx, hk], by simp [Du.remaining, hst]⟩
    · exact ⟨_, Du.movesTo_of_final hst ha hq hm hx, by simp [Du.Sound, Du.busy], by simp [Du.remaining]⟩

/-! ### The state of a unit after its moments -/

/-- MU after its next moment, read off a state that holds MU alone. -/
def Mu.advance (m : Mu) : Mu :=
  match runAgent .mu { State.reset with mu := m } with
  | .next t => t.mu
  | .fault _ => m
  | .refused _ => m

/-- DU after its next moment, read off a state that holds DU alone. -/
def Du.advance (d : Du) : Du :=
  match runAgent .du { State.reset with du := d } with
  | .next t => t.du
  | .fault _ => d
  | .refused _ => d

/-- Where MU moves at its moment is what it advances to. -/
theorem Mu.MovesTo.advance_eq {m m' : Mu} (h : m.MovesTo m') : m.advance = m' := by
  rw [Mu.advance, h _ rfl]

/-- Where DU moves at its moment is what it advances to. -/
theorem Du.MovesTo.advance_eq {d d' : Du} (h : d.MovesTo d') : d.advance = d' := by
  rw [Du.advance, h _ rfl]

/-- A sound MU advances at its moment, stays sound, and its run comes one moment nearer to its end. -/
theorem Mu.Sound.advance {m : Mu} (h : m.Sound) :
    m.MovesTo m.advance ∧ m.advance.Sound ∧ m.advance.remaining ≤ m.remaining - 1 := by
  obtain ⟨m', hmove, hm'⟩ := h.exists_movesTo
  rw [hmove.advance_eq]
  exact ⟨hmove, hm'⟩

/-- A sound DU advances at its moment, stays sound, and its run comes nearer to its end. -/
theorem Du.Sound.advance {d : Du} (h : d.Sound) :
    d.MovesTo d.advance ∧ d.advance.Sound ∧ d.advance.remaining ≤ d.remaining - 1 := by
  obtain ⟨d', hmove, hd'⟩ := h.exists_movesTo
  rw [hmove.advance_eq]
  exact ⟨hmove, hd'⟩

/-- A moment scheduled for a sound MU advances MU and changes nothing else. -/
theorem step_mu_of_sound {s : State} {ts : List Turn} (hs : s.sched = ⟨.mu, false⟩ :: ts) (h : s.mu.Sound) :
    step s = .next { s with mu := s.mu.advance, sched := ts } := by
  rw [step_cons hs, runTurn_plain]
  exact h.advance.1 _ rfl

/-- A moment scheduled for a sound DU advances DU and changes nothing else. -/
theorem step_du_of_sound {s : State} {ts : List Turn} (hs : s.sched = ⟨.du, false⟩ :: ts) (h : s.du.Sound) :
    step s = .next { s with du := s.du.advance, sched := ts } := by
  rw [step_cons hs, runTurn_plain]
  exact h.advance.1 _ rfl

/-- The run over moments of the units alone: each unit advances once per moment of its own, whatever their order (R132, R139). -/
theorem run_unitTurns {l ts : List Turn} {s : State} (hl : UnitTurns l) (hmu : s.mu.Sound) (hdu : s.du.Sound)
    (hs : s.sched = l ++ ts) :
    run l.length s = .next { s with
      mu := Mu.advance^[turnsOf .mu l] s.mu
      du := Du.advance^[turnsOf .du l] s.du
      sched := ts } := by
  induction l generalizing s with
  | nil =>
    obtain rfl : s.sched = ts := hs
    rfl
  | cons u l ih =>
    obtain ⟨hu, htail⟩ := List.forall_mem_cons.mp hl
    obtain ⟨agent, reset⟩ := u
    obtain ⟨rfl, hhost⟩ : reset = false ∧ agent ≠ .host := hu
    rw [List.length_cons]
    cases agent with
    | mu =>
      obtain ⟨-, hsound, -⟩ := hmu.advance
      rw [run_succ_of_next (step_mu_of_sound (ts := l ++ ts) hs hmu)]
      refine (ih (s := { s with mu := s.mu.advance, sched := l ++ ts }) htail hsound hdu rfl).trans ?_
      simp [turnsOf]
    | du =>
      obtain ⟨-, hsound, -⟩ := hdu.advance
      rw [run_succ_of_next (step_du_of_sound (ts := l ++ ts) hs hdu)]
      refine (ih (s := { s with du := s.du.advance, sched := l ++ ts }) htail hmu hsound rfl).trans ?_
      simp [turnsOf]
    | host => exact absurd rfl hhost

/-- Settles O57: both runs end with each unit advanced as often as it had moments. -/
theorem endStateIsIndependentOfInterleaving : Obligations.EndStateIsIndependentOfInterleaving := by
  intro s l₁ l₂ ts hinv hl₁ hl₂ hmu hdu
  obtain ⟨hmuWf, hduWf⟩ := hinv
  refine ⟨_, run_unitTurns hl₁ hmuWf.sound hduWf.sound rfl, ?_⟩
  rw [hmu, hdu]
  exact run_unitTurns hl₂ hmuWf.sound hduWf.sound rfl

/-! ## Past the end of the schedule -/

/-- Where the host has no move, the agents that can move are the busy units. -/
theorem State.mem_ready_iff {s : State} (hh : s.host = []) {c : Agent} :
    c ∈ s.ready ↔ (c = .mu ∧ s.mu.busy = true) ∨ (c = .du ∧ s.du.busy = true) := by
  have hhost : s.hostReady = false := by simp [State.hostReady, hh]
  cases hmu : s.mu.busy <;> cases hdu : s.du.busy <;> simp [State.ready, hhost, hmu, hdu]

/-- With nothing scheduled, an agent that can move does, if there is one; the free choice touches its own counter only. -/
theorem step_unscheduled {s : State} (hs : s.sched = []) (hr : s.ready ≠ []) :
    ∃ c ∈ s.ready, ∃ n, step s = runAgent c { s with tick := n } := by
  rcases hready : s.ready with - | ⟨a, - | ⟨b, more⟩⟩
  · exact absurd hready hr
  · exact ⟨a, by simp, s.tick, step_single hs hready⟩
  · obtain ⟨c, hc, hstep⟩ := step_free hs hready
    exact ⟨c, hready ▸ hc, _, hstep⟩

/-- Past the schedule's end with no host move left, a state that is not at rest comes nearer to rest, whatever the free choice. -/
theorem step_free_units {s : State} (hs : s.sched = []) (hh : s.host = []) (hmu : s.mu.Sound) (hdu : s.du.Sound)
    (hr : s.ready ≠ []) :
    ∃ t, step s = .next t ∧ t.sched = [] ∧ t.host = [] ∧ t.mu.Sound ∧ t.du.Sound ∧
      t.mu.remaining + t.du.remaining < s.mu.remaining + s.du.remaining := by
  obtain ⟨c, hc, n, hstep⟩ := step_unscheduled hs hr
  rcases (State.mem_ready_iff hh).mp hc with ⟨rfl, hb⟩ | ⟨rfl, hb⟩
  · obtain ⟨hmove, hsound, hle⟩ := hmu.advance
    have hpos := s.mu.busy_iff_remaining_pos.mp hb
    exact ⟨_, hstep.trans (hmove _ rfl), hs, hh, hsound, hdu, by simp only; omega⟩
  · obtain ⟨hmove, hsound, hle⟩ := hdu.advance
    have hpos := s.du.busy_iff_remaining_pos.mp hb
    exact ⟨_, hstep.trans (hmove _ rfl), hs, hh, hmu, hsound, by simp only; omega⟩

/-- A state in which no agent can move is at rest. -/
theorem State.quiescent_of_ready_eq_nil {s : State} (hh : s.host = []) (hr : s.ready = []) : s.Quiescent := by
  have hnot : ∀ c, c ∉ s.ready := by simp [hr]
  constructor
  · exact Bool.eq_false_iff.mpr fun hb => hnot .mu ((State.mem_ready_iff hh).mpr (.inl ⟨rfl, hb⟩))
  · exact Bool.eq_false_iff.mpr fun hb => hnot .du ((State.mem_ready_iff hh).mpr (.inr ⟨rfl, hb⟩))

/-- Within as many steps as the two runs still need, the machine is at rest. -/
theorem run_comes_to_rest {s : State} (hs : s.sched = []) (hh : s.host = []) (hmu : s.mu.Sound) (hdu : s.du.Sound) :
    ∃ k t, k ≤ s.mu.remaining + s.du.remaining ∧ run k s = .next t ∧ t.Quiescent ∧ step t = .next t := by
  by_cases hr : s.ready = []
  · exact ⟨0, s, Nat.zero_le _, run_zero, State.quiescent_of_ready_eq_nil hh hr, step_idle hs hr⟩
  · obtain ⟨u, hstep, hs', hh', hmu', hdu', hlt⟩ := step_free_units hs hh hmu hdu hr
    obtain ⟨k, t, hk, hrun, hrest⟩ := run_comes_to_rest hs' hh' hmu' hdu'
    exact ⟨k + 1, t, by omega, (run_succ_of_next hstep).trans hrun, hrest⟩
termination_by s.mu.remaining + s.du.remaining

/-- Settles O56: the two runs together need at most 9 and 14 more steps. -/
theorem freeScheduleComesToRest : Obligations.FreeScheduleComesToRest := by
  intro s hinv hs hh
  obtain ⟨hmuWf, hduWf⟩ := hinv
  obtain ⟨k, t, hk, hrest⟩ := run_comes_to_rest hs hh hmuWf.sound hduWf.sound
  have hmu := s.mu.remaining_le
  have hdu := s.du.remaining_le
  exact ⟨k, t, by omega, hrest⟩

/-! ## The step and the selected instruction -/

/-- A unit's move runs what its code word selects. -/
theorem runUnit_of_selects {c : CodeWord} {e : Except Fault CodeWord} {i : Instr} {s : State} (hc : e = .ok c)
    (hi : decode c = .ok i) : runUnit e s = exec i s := by
  subst hc
  exact runCode_ok hi

/-- The host's move to issue a command runs what the command word selects, with the move used up. -/
theorem runHost_of_issues {w : Cmd} {rest : List HostMove} {i : Instr} {s : State} (hh : s.host = .issue w :: rest)
    (hi : decode (.cmd9 w) = .ok i) : runHost s = exec i { s with host := rest } := by
  rw [runHost, hh]
  exact runCode_ok hi

/-- With no host move and MU alone busy, MU is the one agent that can move. -/
theorem State.ready_of_mu_busy {s : State} (hh : s.host = []) (hmu : s.mu.busy = true) (hdu : s.du.busy = false) :
    s.ready = [.mu] := by
  simp [State.ready, State.hostReady, hh, hmu, hdu]

/-- With no host move and DU alone busy, DU is the one agent that can move. -/
theorem State.ready_of_du_busy {s : State} (hh : s.host = []) (hmu : s.mu.busy = false) (hdu : s.du.busy = true) :
    s.ready = [.du] := by
  simp [State.ready, State.hostReady, hh, hmu, hdu]

/-- Settles O36: the scheduled moments of MU, DU and the host, then the lone busy unit past the schedule's end. -/
theorem stepRunsTheSelectedInstruction : Obligations.StepRunsTheSelectedInstruction := by
  refine ⟨?mu, ?du, ?host, ?muAlone, ?duAlone⟩
  case mu | du =>
    intro s ts c i hs hc hi
    rw [step_cons hs]
    exact runUnit_of_selects hc hi
  case host =>
    intro s ts w rest i hs hh hi
    rw [step_cons hs]
    exact runHost_of_issues hh hi
  case muAlone =>
    intro s c i hs hh hmu hdu hc hi
    rw [step_single hs (State.ready_of_mu_busy hh hmu hdu)]
    exact runUnit_of_selects hc hi
  case duAlone =>
    intro s c i hs hh hmu hdu hc hi
    rw [step_single hs (State.ready_of_du_busy hh hmu hdu)]
    exact runUnit_of_selects hc hi

end Sys2Proof.Machine

namespace Sys2Proof.Machine

/-! ## Power-on, the levels, quiescence and the labels -/

/-- Settles O1: power-on and reset leave the same blank units. -/
theorem powerOnStateIsTheResetState : Obligations.PowerOnStateIsTheResetState :=
  ⟨rfl, rfl, ⟨rfl, rfl, rfl⟩, ⟨rfl, rfl, rfl⟩, fun s => ⟨applyReset_mu s, applyReset_du s⟩⟩

/-- Settles O37: a moment of a unit that is not busy moves the unit to itself. -/
theorem quiescentUnitTakesNoStep : Obligations.QuiescentUnitTakesNoStep := by
  refine ⟨fun s => ⟨s.mu.busy_eq_false_iff.mpr, s.du.busy_eq_false_iff.mpr⟩, ?mu, ?du⟩
  case mu =>
    intro s ts hs hb
    rw [step_cons hs]
    exact Mu.movesTo_self hb _ rfl
  case du =>
    intro s ts hs hb
    rw [step_cons hs]
    exact Du.movesTo_self hb _ rfl

/-- MU is busy exactly outside `IDLE` and `DONE` (R30). -/
theorem Mu.busy_iff_not_quiescent (m : Mu) : m.busy = true ↔ m.st ≠ .idle ∧ m.st ≠ .done := by
  rw [← Bool.not_eq_false, m.busy_eq_false_iff, not_or]

/-- DU is busy exactly outside `IDLE`, `DONE` and `ERROR` (R30). -/
theorem Du.busy_iff_not_quiescent (d : Du) : d.busy = true ↔ d.st ≠ .idle ∧ d.st ≠ .done ∧ d.st ≠ .error := by
  rw [← Bool.not_eq_false, d.busy_eq_false_iff, not_or, not_or]

/-- Settles O46: each level is read off the sequencer state, which is one state at a time. -/
theorem statusLevels : Obligations.StatusLevels := by
  refine ⟨fun m => ⟨?muBusy, beq_iff_eq, rfl⟩, fun d => ⟨?duBusy, beq_iff_eq, beq_iff_eq, ?both⟩, rfl, rfl⟩
  case muBusy => exact m.busy_iff_not_quiescent
  case duBusy => exact d.busy_iff_not_quiescent
  case both =>
    rintro ⟨hdone, herr⟩
    have hst : d.st = .done := beq_iff_eq.mp hdone
    have hst' : d.st = .error := beq_iff_eq.mp herr
    simp [hst] at hst'

/-- Settles O58: the labels are written out in the model as the source gives them. -/
theorem recordLabelsAreTheSourceTexts : Obligations.RecordLabelsAreTheSourceTexts :=
  ⟨rfl, rfl, rfl, rfl, rfl, rfl, rfl, rfl, rfl, rfl, rfl, rfl, rfl, rfl⟩

end Sys2Proof.Machine

/-! ## What one step can make of the units

Every step is one of: a micro-step of one unit, a start step of a quiescent unit, a reset of both, or nothing that touches a unit.
The relations `Mu.ChangesTo` and `Du.ChangesTo` list these; what every step keeps is then a case split over them. -/

namespace Sys2Proof.Machine

/-- The micro-steps of MU (R84 to R88), with what each leaves in MU. -/
inductive Mu.Micro (m : Mu) : Mu → Prop
  /-- An operation step writes `A` (R84, R85, R86). -/
  | operation {kind : MuKind} {a q : Nibble} {p : Bit} (hst : m.st = .op) (hkind : kind ≠ .final) :
      Mu.Micro m { m.emit kind a q p none with a := some a, st := .shift }
  /-- The shift step ends the iteration (R87). -/
  | shift {a q : Nibble} {p : Bit} {k : Counter} (hst : m.st = .shift) (hk : m.k = some k) :
      Mu.Micro m { m.emit .asr a q p none with
        a := some a
        q := some q
        qm1 := some p
        k := some (k + 1#3)
        st := if k + 1#3 = Config.iterations then .final else .op }
  /-- The final step leaves the final record (R88). -/
  | final {a q x y : Nibble} {p : Bit} (hst : m.st = .final) (ha : m.a = some a) (hq : m.q = some q)
      (hp : m.qm1 = some p) (hx : m.m = some x) (hy : m.y = some y) :
      Mu.Micro m { m.emit .final a q p (some
        { p := product a q, pDec := sval (product a q), mDec := sval x, yDec := sval y }) with st := .done }

/-- The micro-steps of DU (R100 to R107), with what each leaves in DU. -/
inductive Du.Micro (d : Du) : Du → Prop
  /-- The shift step writes `A` and `Q` (R100). -/
  | shift {a : Acc} {q : Nibble} (hst : d.st = .shift) :
      Du.Micro d { d.emit .shl a q none with a := some a, q := some q, st := .adjust }
  /-- An adjust step writes `A` (R101, R102). -/
  | adjust {kind : DuKind} {a : Acc} {q : Nibble} (hst : d.st = .adjust) (hkind : kind ≠ .final) :
      Du.Micro d { d.emit kind a q none with a := some a, st := .setq0 }
  /-- The set-Q0 step ends the iteration; the sign of `A` selects what follows the last one (R104, R61). -/
  | setq0 {a : Acc} {q : Nibble} {k : Counter} (hst : d.st = .setq0) (ha : d.a = some a) (hk : d.k = some k) :
      Du.Micro d { d.emit .setq0 a q none with q := some q, k := some (k + 1#3), st := afterSetQ0 (k + 1#3) a }
  /-- The restore step writes `A` (R106). -/
  | restore {a : Acc} {q : Nibble} (hst : d.st = .restore) :
      Du.Micro d { d.emit .restore a q none with a := some a, st := .final }
  /-- The final step leaves the final record (R107). -/
  | final {a m : Acc} {q x : Nibble} (hst : d.st = .final) (ha : d.a = some a) (hq : d.q = some q)
      (hm : d.m = some m) (hx : d.x = some x) :
      Du.Micro d { d.emit .final a q (some
        { xDec := sval x, mDec := sval m, qDec := sval q, rDec := sval a }) with st := .done }

/-- What one step of the machine can make of MU. -/
inductive Mu.ChangesTo (m : Mu) : Mu → Prop
  | stays : Mu.ChangesTo m m
  | micro {m' : Mu} (h : m.Micro m') : Mu.ChangesTo m m'
  | reset : Mu.ChangesTo m Mu.blank
  | start (x y : Nibble) (hb : m.busy = false) : Mu.ChangesTo m (Mu.start x y)

/-- What one step of the machine can make of DU. -/
inductive Du.ChangesTo (d : Du) : Du → Prop
  | stays : Du.ChangesTo d d
  | micro {d' : Du} (h : d.Micro d') : Du.ChangesTo d d'
  | reset : Du.ChangesTo d Du.blank
  | start (x y : Nibble) (hy : y ≠ 0#4) (hb : d.busy = false) : Du.ChangesTo d (Du.start x y)
  | startZero (x : Nibble) (hb : d.busy = false) : Du.ChangesTo d (Du.startZero x)

/-! ### From the step down to the instruction -/

/-- A command word selects a command, and one that stands for a row of the table (R55). -/
theorem decodeCommand_spec (w : Cmd) : (decodeCommand w).isCommand = true ∧ (decodeCommand w).wellFormed = true := by
  unfold decodeCommand
  split
  · exact ⟨rfl, rfl⟩
  · split
    · exact ⟨rfl, rfl⟩
    · exact ⟨rfl, bne_iff_ne.mpr ‹_›⟩

/-- Whatever a code word selects stands for a row of the table. -/
theorem decode_wellFormed {c : CodeWord} {i : Instr} (h : decode c = .ok i) : i.wellFormed = true := by
  cases c with
  | cmd9 w => cases h; exact (decodeCommand_spec w).2
  | muPair c => cases h; unfold decodePair; split_ifs <;> rfl
  | muSeq st => cases st <;> cases h <;> rfl
  | duAdjust sign => cases h; unfold decodeAdjust; split_ifs <;> rfl
  | duCorrect sign =>
    simp only [decode, decodeCorrect] at h
    split at h <;> cases h
    rfl
  | duSeq st => cases st <;> cases h <;> rfl

/-- What an instruction can make of the two units. -/
theorem exec_changes {i : Instr} {s t : State} (hi : i.wellFormed = true) (h : exec i s = .next t) :
    s.mu.ChangesTo t.mu ∧ s.du.ChangesTo t.du := by
  cases i with
  | mul x y =>
    rcases startMu_next h with ⟨-, rfl⟩ | ⟨hb, rfl⟩
    · exact ⟨.stays, .stays⟩
    · exact ⟨.start x y hb, .stays⟩
  | div x d =>
    have hd : d ≠ 0#4 := bne_iff_ne.mp hi
    rcases startDu_next h with ⟨-, rfl⟩ | ⟨hb, rfl⟩
    · exact ⟨.stays, .stays⟩
    · rw [if_neg hd]
      exact ⟨.stays, .start x d hd hb⟩
  | divZero x =>
    rcases startDu_next h with ⟨-, rfl⟩ | ⟨hb, rfl⟩
    · exact ⟨.stays, .stays⟩
    · exact ⟨.stays, .startZero x hb⟩
  | muSub =>
    obtain ⟨hst, a, q, p, m, -, -, -, -, -, rfl⟩ := execMuSub_next h
    exact ⟨.micro (.operation hst (by decide)), .stays⟩
  | muAdd =>
    obtain ⟨hst, a, q, p, m, -, -, -, -, -, rfl⟩ := execMuAdd_next h
    exact ⟨.micro (.operation hst (by decide)), .stays⟩
  | muNop00 | muNop11 =>
    obtain ⟨hst, a, q, p, -, -, -, -, rfl⟩ := muNoOperation_next h
    exact ⟨.micro (.operation hst (by decide)), .stays⟩
  | muAsr =>
    obtain ⟨hst, a, q, p, k, -, -, -, hk, rfl⟩ := execMuAsr_next h
    exact ⟨.micro (.shift hst hk), .stays⟩
  | muFinal =>
    obtain ⟨hst, a, q, p, m, y, ha, hq, hp, hm, hy, rfl⟩ := execMuFinal_next h
    exact ⟨.micro (.final hst ha hq hp hm hy), .stays⟩
  | duShl =>
    obtain ⟨hst, a, q, -, -, rfl⟩ := execDuShl_next h
    exact ⟨.stays, .micro (.shift hst)⟩
  | duSub =>
    obtain ⟨hst, a, q, m, -, -, -, -, rfl⟩ := execDuSub_next h
    exact ⟨.stays, .micro (.adjust hst (by decide))⟩
  | duAdd =>
    obtain ⟨hst, a, q, m, -, -, -, -, rfl⟩ := execDuAdd_next h
    exact ⟨.stays, .micro (.adjust hst (by decide))⟩
  | duSetq0 =>
    obtain ⟨hst, a, q, k, ha, -, hk, rfl⟩ := execDuSetq0_next h
    exact ⟨.stays, .micro (.setq0 hst ha hk)⟩
  | duRestore =>
    obtain ⟨hst, a, q, m, -, -, -, rfl⟩ := execDuRestore_next h
    exact ⟨.stays, .micro (.restore hst)⟩
  | duFinal =>
    obtain ⟨hst, a, q, m, x, ha, hq, hm, hx, rfl⟩ := execDuFinal_next h
    exact ⟨.stays, .micro (.final hst ha hq hm hx)⟩

/-- What running a code word can make of the two units. -/
theorem runCode_changes {c : CodeWord} {s t : State} (h : runCode c s = .next t) :
    s.mu.ChangesTo t.mu ∧ s.du.ChangesTo t.du := by
  rcases runCode_next h with ⟨i, hi, hexec⟩ | ⟨-, rfl⟩
  · exact exec_changes (decode_wellFormed hi) hexec
  · exact ⟨.stays, .stays⟩

/-- What a unit's move can make of the two units. -/
theorem runUnit_changes {c : Except Fault CodeWord} {s t : State} (h : runUnit c s = .next t) :
    s.mu.ChangesTo t.mu ∧ s.du.ChangesTo t.du := by
  obtain ⟨w, -, hw⟩ := runUnit_next h
  exact runCode_changes hw

/-- What a move of the host can make of the two units. -/
theorem hostMove_changes {m : HostMove} {rest : List HostMove} {s t : State} (h : hostMove m rest s = .next t) :
    s.mu.ChangesTo t.mu ∧ s.du.ChangesTo t.du := by
  cases m with
  | issue w => exact runCode_changes (c := .cmd9 w) (s := { s with host := rest }) h
  | reset => cases h; exact ⟨.reset, .reset⟩
  | readStatus u | readTrace u => cases h; exact ⟨.stays, .stays⟩
  | wait u =>
    simp only [hostMove] at h
    split at h <;> cases h <;> exact ⟨.stays, .stays⟩
  | takeResult u =>
    simp only [hostMove] at h
    split at h <;> cases h
    exact ⟨.stays, .stays⟩

/-- What the host's moment can make of the two units. -/
theorem runHost_changes {s t : State} (h : runHost s = .next t) : s.mu.ChangesTo t.mu ∧ s.du.ChangesTo t.du := by
  rw [runHost] at h
  split at h
  · cases h; exact ⟨.stays, .stays⟩
  · exact hostMove_changes h

/-- What a moment can make of the two units. -/
theorem runTurn_changes {u : Turn} {s t : State} (h : runTurn u s = .next t) :
    s.mu.ChangesTo t.mu ∧ s.du.ChangesTo t.du := by
  obtain ⟨agent, reset⟩ := u
  cases reset with
  | true => cases h; exact ⟨.reset, .reset⟩
  | false =>
    cases agent with
    | mu | du => exact runUnit_changes h
    | host => exact runHost_changes h

/-- A step is one moment, or nothing at all where no agent can move; choosing the moment touches no more than the schedule and the
counter of free choices. -/
theorem step_is_turn (s : State) :
    step s = .next s ∨ ∃ u ts n, step s = runTurn u { s with sched := ts, tick := n } := by
  rcases hs : s.sched with - | ⟨u, ts⟩
  · by_cases hr : s.ready = []
    · exact .inl (step_idle hs hr)
    · obtain ⟨c, -, n, hstep⟩ := step_unscheduled hs hr
      exact .inr ⟨⟨c, false⟩, s.sched, n, hstep⟩
  · exact .inr ⟨u, ts, s.tick, step_cons hs⟩

/-- What a step can make of the two units. -/
theorem step_changes {s t : State} (h : step s = .next t) : s.mu.ChangesTo t.mu ∧ s.du.ChangesTo t.du := by
  rcases step_is_turn s with hidle | ⟨u, ts, n, hturn⟩
  · cases hidle.symm.trans h
    exact ⟨.stays, .stays⟩
  · exact runTurn_changes (s := { s with sched := ts, tick := n }) (hturn.symm.trans h)

/-! ## The operand registers -/

/-- A micro-step of MU leaves `M` and `Y` (R19). -/
theorem Mu.Micro.operands {m m' : Mu} (h : m.Micro m') : m'.m = m.m ∧ m'.y = m.y := by
  cases h <;> exact ⟨rfl, rfl⟩

/-- A micro-step of DU leaves `M` and `X` (R19). -/
theorem Du.Micro.operands {d d' : Du} (h : d.Micro d') : d'.m = d.m ∧ d'.x = d.x := by
  cases h <;> exact ⟨rfl, rfl⟩

/-- Where MU's operand registers change, MU was reset or started. -/
theorem Mu.ChangesTo.of_operands_ne {m m' : Mu} (h : m.ChangesTo m') (hne : m'.m ≠ m.m ∨ m'.y ≠ m.y) :
    m' = Mu.blank ∨ (m.busy = false ∧ ∃ x y, m' = Mu.start x y) := by
  cases h with
  | stays => simp at hne
  | micro h => simp [h.operands] at hne
  | reset => exact .inl rfl
  | start x y hb => exact .inr ⟨hb, x, y, rfl⟩

/-- Where DU's operand registers change, DU was reset or started. -/
theorem Du.ChangesTo.of_operands_ne {d d' : Du} (h : d.ChangesTo d') (hne : d'.m ≠ d.m ∨ d'.x ≠ d.x) :
    d' = Du.blank ∨ (d.busy = false ∧ ∃ x, d' = Du.startZero x ∨ ∃ y, d' = Du.start x y) := by
  cases h with
  | stays => simp at hne
  | micro h => simp [h.operands] at hne
  | reset => exact .inl rfl
  | start x y _ hb => exact .inr ⟨hb, x, .inr ⟨y, rfl⟩⟩
  | startZero x hb => exact .inr ⟨hb, x, .inl rfl⟩

/-- Settles O43: of all that a step can make of a unit, only reset and the start step write the operand registers. -/
theorem operandRegistersHoldThroughARun : Obligations.OperandRegistersHoldThroughARun := by
  intro s t h
  obtain ⟨hmu, hdu⟩ := step_changes h
  exact ⟨hmu.of_operands_ne, hdu.of_operands_ne⟩

/-! ## The invariant -/

/-- What the trace of a run that has not ended is: as long as the record counter says, numbered in order, without a final
record (R13, R24, R46). -/
def Mu.Recording (m : Mu) : Prop :=
  m.n = m.trace.length ∧ m.trace.map MuRecord.idx = List.range m.n ∧ ∀ r ∈ m.trace, r.kind ≠ .final ∧ r.fin = none

/-- What the trace of a run that has not ended is, as for MU. -/
def Du.Recording (d : Du) : Prop :=
  d.n = d.trace.length ∧ d.trace.map DuRecord.idx = List.range d.n ∧ ∀ r ∈ d.trace, r.kind ≠ .final ∧ r.fin = none

section EmitKeeps
variable {m : Mu} {d : Du}

/-- A record appended by MU keeps the trace as long as the counter says, and its numbers in order (R13). -/
theorem Mu.emit_numbered {kind : MuKind} {a q : Nibble} {p : Bit} {fin : Option MuFinal}
    (hn : m.n = m.trace.length) (hidx : m.trace.map MuRecord.idx = List.range m.n) :
    (m.emit kind a q p fin).n = (m.emit kind a q p fin).trace.length ∧
      (m.emit kind a q p fin).trace.map MuRecord.idx = List.range (m.emit kind a q p fin).n := by
  simp [List.range_succ, ← hn, hidx]

/-- A record appended by DU keeps the trace as long as the counter says, and its numbers in order (R13). -/
theorem Du.emit_numbered {kind : DuKind} {a : Acc} {q : Nibble} {fin : Option DuFinal}
    (hn : d.n = d.trace.length) (hidx : d.trace.map DuRecord.idx = List.range d.n) :
    (d.emit kind a q fin).n = (d.emit kind a q fin).trace.length ∧
      (d.emit kind a q fin).trace.map DuRecord.idx = List.range (d.emit kind a q fin).n := by
  simp [List.range_succ, ← hn, hidx]

/-- A record that is not the final one keeps MU's trace that of a run that has not ended. -/
theorem Mu.Recording.emit (h : m.Recording) {kind : MuKind} (hkind : kind ≠ .final) (a q : Nibble) (p : Bit) :
    (m.emit kind a q p none).Recording := by
  obtain ⟨hn, hidx, hplain⟩ := h
  obtain ⟨hn', hidx'⟩ := Mu.emit_numbered hn hidx
  exact ⟨hn', hidx', List.forall_mem_append.mpr ⟨hplain, List.forall_mem_singleton.mpr ⟨hkind, rfl⟩⟩⟩

/-- A record that is not the final one keeps DU's trace that of a run that has not ended. -/
theorem Du.Recording.emit (h : d.Recording) {kind : DuKind} (hkind : kind ≠ .final) (a : Acc) (q : Nibble) :
    (d.emit kind a q none).Recording := by
  obtain ⟨hn, hidx, hplain⟩ := h
  obtain ⟨hn', hidx'⟩ := Du.emit_numbered hn hidx
  exact ⟨hn', hidx', List.forall_mem_append.mpr ⟨hplain, List.forall_mem_singleton.mpr ⟨hkind, rfl⟩⟩⟩

end EmitKeeps

/-! ### MU -/

/-- MU after reset is as `IDLE` says. -/
theorem Mu.blank_wf : Mu.blank.Wf := ⟨by decide, by decide, by decide⟩

/-- What the invariant asks of a running MU. -/
theorem Mu.wf_of_busy {m : Mu} (hb : m.busy = true) (hlive : m.Live) (hrec : m.Recording) (hprog : m.ProgressWf) : m.Wf := by
  obtain ⟨hidle, hdone⟩ := m.busy_iff_not_quiescent.mp hb
  obtain ⟨hn, hidx, hplain⟩ := hrec
  exact ⟨⟨fun h => absurd h hidle, fun _ => hlive⟩, ⟨hn, hidx, fun h => absurd h hdone, fun _ => hplain⟩, hprog⟩

/-- The trace of a running MU that meets the invariant. -/
theorem Mu.Wf.recording {m : Mu} (h : m.Wf) (hdone : m.st ≠ .done) : m.Recording := by
  obtain ⟨-, ⟨hn, hidx, -, hplain⟩, -⟩ := h
  exact ⟨hn, hidx, hplain hdone⟩

/-- A start step leaves MU as `OP` says (R82). -/
theorem Mu.start_wf (x y : Nibble) : (Mu.start x y).Wf :=
  Mu.wf_of_busy rfl (by simp [Mu.Live, Mu.start]) (by simp [Mu.Recording, Mu.start])
    (by simp [Mu.ProgressWf, Mu.start, Mu.iteration])

/-- Every micro-step of MU leaves MU as its next state says (R90). -/
theorem Mu.Micro.wf {m m' : Mu} (h : m.Micro m') (hwf : m.Wf) : m'.Wf := by
  have ⟨⟨_, hlive⟩, ⟨hn, hidx, _, _⟩, hop, hshift, hfinal, _⟩ := hwf
  cases h with
  | operation hst hkind =>
    obtain ⟨hk3, hcount⟩ := hop hst
    obtain ⟨-, hq, hp, hx, hy, hk⟩ := hlive (by simp [hst])
    have hrec := (hwf.recording (by simp [hst])).emit hkind
    refine Mu.wf_of_busy rfl ⟨rfl, hq, hp, hx, hy, hk⟩ (hrec _ _ _) ?_
    simpa [Mu.ProgressWf, Mu.iteration, hcount] using hk3
  | @shift a q p k hst hk =>
    obtain ⟨hk3, hcount⟩ := hshift hst
    obtain ⟨-, -, -, hx, hy, -⟩ := hlive (by simp [hst])
    have hrec := (hwf.recording (by simp [hst])).emit (kind := .asr) (by decide) a q p
    simp only [Mu.iteration, hk, Option.getD_some] at hk3 hcount
    by_cases hlast : k.toNat = 3
    · rw [if_pos ((counter_succ_eq_iterations_iff hk3).mpr hlast)]
      refine Mu.wf_of_busy rfl ⟨rfl, rfl, rfl, hx, hy, rfl⟩ hrec ?_
      simp [Mu.ProgressWf, Mu.iteration, counter_succ_toNat hk3, hcount, hlast]
    · rw [if_neg (mt (counter_succ_eq_iterations_iff hk3).mp hlast)]
      refine Mu.wf_of_busy rfl ⟨rfl, rfl, rfl, hx, hy, rfl⟩ hrec ?_
      have hlt : k.toNat < 3 := lt_of_le_of_ne hk3 hlast
      simp [Mu.ProgressWf, Mu.iteration, counter_succ_toNat hk3, hcount, hlt, Nat.mul_add]
  | final hst ha hq hp hx hy =>
    obtain ⟨hk4, hn9⟩ := hfinal hst
    obtain ⟨hn', hidx'⟩ := Mu.emit_numbered hn hidx
    refine ⟨⟨by simp, fun _ => hlive (by simp [hst])⟩, ⟨hn', hidx', fun _ => ?_, by simp⟩, ?_⟩
    · simp [Mu.finalRecord, ha, hq, hp, hx, hy, hn9]
    · simpa [Mu.ProgressWf, Mu.iteration, hn9] using hk4

/-- Whatever a step makes of MU, MU is as its sequencer state says. -/
theorem Mu.ChangesTo.wf {m m' : Mu} (h : m.ChangesTo m') (hwf : m.Wf) : m'.Wf := by
  cases h with
  | stays => exact hwf
  | micro h => exact h.wf hwf
  | reset => exact Mu.blank_wf
  | start x y _ => exact Mu.start_wf x y

/-! ### DU -/

/-- What the divisor register of a run with a non-zero divisor is (R77, R97). -/
def Du.Divides (d : Du) : Prop := signBit (d.m.getD 0#5) = 0#1 ∧ d.m ≠ some 0#5

/-- DU after reset is as `IDLE` says. -/
theorem Du.blank_wf : Du.blank.Wf := ⟨by decide, by decide, by decide⟩

/-- What the invariant asks of a running DU. -/
theorem Du.wf_of_busy {d : Du} (hb : d.busy = true) (hlive : d.Live) (hdiv : d.Divides) (hrec : d.Recording)
    (hprog : d.ProgressWf) : d.Wf := by
  obtain ⟨hidle, hdone, herror⟩ := d.busy_iff_not_quiescent.mp hb
  obtain ⟨hsign, hm⟩ := hdiv
  obtain ⟨hn, hidx, hplain⟩ := hrec
  exact ⟨⟨fun h => absurd h hidle, fun _ => ⟨hlive, hsign, iff_of_false hm herror⟩⟩,
    ⟨hn, hidx, fun h => absurd h hdone, fun h => absurd h herror, fun _ => hplain⟩, hprog⟩

/-- The trace of a running DU that meets the invariant. -/
theorem Du.Wf.recording {d : Du} (h : d.Wf) (hdone : d.st ≠ .done) : d.Recording := by
  obtain ⟨-, ⟨hn, hidx, -, -, hplain⟩, -⟩ := h
  exact ⟨hn, hidx, hplain hdone⟩

/-- The registers of a running DU that meets the invariant. -/
theorem Du.Wf.live_and_divides {d : Du} (h : d.Wf) (hb : d.busy = true) : d.Live ∧ d.Divides := by
  obtain ⟨hidle, -, herror⟩ := d.busy_iff_not_quiescent.mp hb
  obtain ⟨⟨-, hregs⟩, -, -⟩ := h
  obtain ⟨hlive, hsign, hm⟩ := hregs hidle
  exact ⟨hlive, hsign, mt hm.mp herror⟩

/-- A start step with a non-zero divisor leaves DU as `SHIFT` says (R97). -/
theorem Du.start_wf (x : Nibble) {y : Nibble} (hy : y ≠ 0#4) : (Du.start x y).Wf := by
  have hdiv : (Du.start x y).Divides :=
    ⟨zext5_extract y, fun h => hy ((zext5_eq_zero_iff y).mp (Option.some.inj h))⟩
  exact Du.wf_of_busy rfl (by simp [Du.Live, Du.start]) hdiv (by simp [Du.Recording, Du.start])
    (by simp [Du.ProgressWf, Du.start, Du.iteration])

/-- The divide-by-zero start step leaves DU as `ERROR` says (R98). -/
theorem Du.startZero_wf (x : Nibble) : (Du.startZero x).Wf :=
  ⟨⟨by simp [Du.startZero], by simp [Du.Live, Du.startZero, signBit]⟩,
    by simp [Du.RecordsWf, Du.startZero, Du.raiseDivideByZero, errorRecord],
    by simp [Du.ProgressWf, Du.startZero]⟩

/-- After the last iteration the sign of `A` selects the restore step or the final one (R104, R61). -/
theorem afterSetQ0_of_last {k : Counter} (h : k.toNat = 3) (a : Acc) :
    afterSetQ0 (k + 1#3) a = if signBit a = 1#1 then .restore else .final := by
  have hge : ¬ k + 1#3 < Config.iterations := by
    rw [BitVec.lt_def, counter_succ_toNat h.le]
    simp [Config.iterations, h]
  rw [afterSetQ0, if_neg hge]

/-- Every micro-step of DU leaves DU as its next state says (R109). -/
theorem Du.Micro.wf {d d' : Du} (h : d.Micro d') (hwf : d.Wf) : d'.Wf := by
  have ⟨_, ⟨hn, hidx, _, _, _⟩, hshift, hadjust, hsetq0, hrestore, hfinal, _⟩ := hwf
  cases h with
  | shift hst =>
    obtain ⟨hk3, hcount⟩ := hshift hst
    obtain ⟨⟨-, -, hm, hx, hk⟩, hdiv⟩ := hwf.live_and_divides (by simp [Du.busy, hst])
    have hrec := (hwf.recording (by simp [hst])).emit (kind := .shl) (by decide)
    refine Du.wf_of_busy rfl ⟨rfl, rfl, hm, hx, hk⟩ hdiv (hrec _ _) ?_
    simpa [Du.ProgressWf, Du.iteration, hcount] using hk3
  | adjust hst hkind =>
    obtain ⟨hk3, hcount⟩ := hadjust hst
    obtain ⟨⟨-, hq, hm, hx, hk⟩, hdiv⟩ := hwf.live_and_divides (by simp [Du.busy, hst])
    have hrec := (hwf.recording (by simp [hst])).emit hkind
    refine Du.wf_of_busy rfl ⟨rfl, hq, hm, hx, hk⟩ hdiv (hrec _ _) ?_
    simpa [Du.ProgressWf, Du.iteration, hcount] using hk3
  | @setq0 a q k hst ha hk =>
    obtain ⟨hk3, hcount⟩ := hsetq0 hst
    obtain ⟨⟨hsome, -, hm, hx, -⟩, hdiv⟩ := hwf.live_and_divides (by simp [Du.busy, hst])
    have hrec := (hwf.recording (by simp [hst])).emit (kind := .setq0) (by decide) a q
    simp only [Du.iteration, hk, Option.getD_some] at hk3 hcount
    by_cases hlast : k.toNat = 3
    · rw [afterSetQ0_of_last hlast]
      by_cases hs : signBit a = 1#1
      · rw [if_pos hs]
        refine Du.wf_of_busy rfl ⟨hsome, rfl, hm, hx, rfl⟩ hdiv hrec ?_
        simp [Du.ProgressWf, Du.iteration, counter_succ_toNat hk3, hcount, hlast, ha, hs]
      · rw [if_neg hs]
        refine Du.wf_of_busy rfl ⟨hsome, rfl, hm, hx, rfl⟩ hdiv hrec ?_
        simp [Du.ProgressWf, Du.iteration, counter_succ_toNat hk3, hcount, hlast]
    · rw [afterSetQ0_eq_shift (by omega)]
      refine Du.wf_of_busy rfl ⟨hsome, rfl, hm, hx, rfl⟩ hdiv hrec ?_
      have hlt : k.toNat < 3 := lt_of_le_of_ne hk3 hlast
      simp [Du.ProgressWf, Du.iteration, counter_succ_toNat hk3, hcount, hlt, Nat.mul_add]
  | restore hst =>
    obtain ⟨hk4, hn13, -⟩ := hrestore hst
    obtain ⟨⟨-, hq, hm, hx, hk⟩, hdiv⟩ := hwf.live_and_divides (by simp [Du.busy, hst])
    have hrec := (hwf.recording (by simp [hst])).emit (kind := .restore) (by decide)
    refine Du.wf_of_busy rfl ⟨rfl, hq, hm, hx, hk⟩ hdiv (hrec _ _) ?_
    simpa [Du.ProgressWf, Du.iteration, hn13] using hk4
  | final hst ha hq hm hx =>
    obtain ⟨hk4, hcount⟩ := hfinal hst
    obtain ⟨hlive, hsign, hm0⟩ := hwf.live_and_divides (by simp [Du.busy, hst])
    obtain ⟨hn', hidx'⟩ := Du.emit_numbered hn hidx
    refine ⟨⟨by simp, fun _ => ⟨hlive, hsign, iff_of_false hm0 (by simp)⟩⟩,
      ⟨hn', hidx', fun _ => ?_, by simp, by simp⟩, ?_⟩
    · simp [Du.finalRecord, ha, hq, hm, hx]
    · simpa [Du.ProgressWf, Du.iteration, hcount] using hk4

/-- Whatever a step makes of DU, DU is as its sequencer state says. -/
theorem Du.ChangesTo.wf {d d' : Du} (h : d.ChangesTo d') (hwf : d.Wf) : d'.Wf := by
  cases h with
  | stays => exact hwf
  | micro h => exact h.wf hwf
  | reset => exact Du.blank_wf
  | start x y hy _ => exact Du.start_wf x hy
  | startZero x _ => exact Du.startZero_wf x

/-- Settles O41: a step can only make of each unit what keeps its part of the invariant. -/
theorem everyStepKeepsTheInvariant : Obligations.EveryStepKeepsTheInvariant := by
  intro s t hinv h
  obtain ⟨hmuWf, hduWf⟩ := hinv
  obtain ⟨hmu, hdu⟩ := step_changes h
  exact ⟨hmu.wf hmuWf, hdu.wf hduWf⟩

/-- Settles O40: both units are blank. -/
theorem resetStateIsWellFormed : Obligations.ResetStateIsWellFormed := ⟨Mu.blank_wf, Du.blank_wf⟩

/-! ## Where the machine stops -/

/-- A command is carried out or refused by the mark; it never stops the machine (R55, R149). -/
theorem exec_command_goes_on {i : Instr} (hi : i.isCommand = true) (s : State) : ∃ t, exec i s = .next t := by
  have hmu (m : Mu) : ∃ t, startMu m s = .next t := by unfold startMu; split <;> exact ⟨_, rfl⟩
  have hdu (d : Du) : ∃ t, startDu d s = .next t := by unfold startDu; split <;> exact ⟨_, rfl⟩
  cases i with
  | mul x y => exact hmu _
  | div x d => exact hdu _
  | divZero x => exact hdu _
  | muSub | muAdd | muNop00 | muNop11 | muAsr | muFinal => cases hi
  | duShl | duSub | duAdd | duSetq0 | duRestore | duFinal => cases hi

/-- The host's move goes on, unless it takes a result that is not there. -/
theorem hostMove_goes_on (m : HostMove) (rest : List HostMove) (s : State) :
    (∃ t, hostMove m rest s = .next t) ∨ ∃ u, m = .takeResult u ∧ hostMove m rest s = .fault (.noResult u) := by
  cases m with
  | issue w => exact .inl (exec_command_goes_on (decodeCommand_spec w).1 _)
  | reset | readStatus u | readTrace u => exact .inl ⟨_, rfl⟩
  | wait u => simp only [hostMove]; split <;> exact .inl ⟨_, rfl⟩
  | takeResult u =>
    simp only [hostMove]
    split
    · exact .inl ⟨_, rfl⟩
    · exact .inr ⟨u, rfl, rfl⟩

/-- The host's moment goes on, unless its next move takes a result that is not there. -/
theorem runHost_goes_on (s : State) :
    (∃ t, runHost s = .next t) ∨ ∃ u, s.host.head? = some (.takeResult u) ∧ runHost s = .fault (.noResult u) := by
  unfold runHost
  rcases s.host with - | ⟨m, rest⟩
  · exact .inl ⟨s, rfl⟩
  · rcases hostMove_goes_on m rest s with hnext | ⟨u, rfl, hfault⟩
    · exact .inl hnext
    · exact .inr ⟨u, rfl, hfault⟩

/-- A moment from a state whose units are sound goes on, unless the host takes a result that is not there. -/
theorem runTurn_goes_on (u : Turn) {s : State} (hmu : s.mu.Sound) (hdu : s.du.Sound) :
    (∃ t, runTurn u s = .next t) ∨ ∃ n, s.host.head? = some (.takeResult n) ∧ runTurn u s = .fault (.noResult n) := by
  obtain ⟨agent, reset⟩ := u
  cases reset with
  | true => exact .inl ⟨_, runTurn_reset agent⟩
  | false =>
    cases agent with
    | mu => exact .inl ⟨_, hmu.advance.1 s rfl⟩
    | du => exact .inl ⟨_, hdu.advance.1 s rfl⟩
    | host => exact runHost_goes_on s

/-- Settles O42: the units' moments go on since the invariant makes the units sound; of the host's moves only `takeResult` can
stop. -/
theorem noStepReadsAnUnwrittenRegister : Obligations.NoStepReadsAnUnwrittenRegister := by
  intro s hinv
  obtain ⟨hmuWf, hduWf⟩ := hinv
  rcases step_is_turn s with hidle | ⟨u, ts, n, hturn⟩
  · exact .inl ⟨s, hidle⟩
  · rw [hturn]
    exact runTurn_goes_on u hmuWf.sound hduWf.sound

/-! ### Reads of a register without a value -/

/-- A read faults where its register holds no value; it faults too where all that comes after it does. -/
theorem readReg_faults {α : Type} {r : Reg} {v : Option α} {use : α → Out}
    (h : v = none ∨ ∀ x, ∃ r', use x = .fault (.readUnwritten r')) :
    ∃ r', readReg r v use = .fault (.readUnwritten r') := by
  cases v with
  | none => exact ⟨r, rfl⟩
  | some x => exact h.resolve_left (by simp) x

/-- Where the two bits of the control pair differ, the pair selects a subtraction or an addition (R58). -/
theorem controlPair_of_ne {q : Nibble} {p : Bit} (h : q.extractLsb' 0 1 ≠ p) :
    controlPair q p = 0b10#2 ∨ controlPair q p = 0b01#2 := by
  unfold controlPair
  generalize q.extractLsb' 0 1 = b at h ⊢
  revert b p
  decide

section Selected
variable {s : State}

/-- In `OP` without a control pair MU's moment faults (R83). -/
theorem runAgent_mu_faults_of_no_pair (hst : s.mu.st = .op) (h : s.mu.q = none ∨ s.mu.qm1 = none) :
    ∃ r, runAgent .mu s = .fault (.readUnwritten r) := by
  rw [runAgent_mu, Mu.codeWord, hst]
  cases hq : s.mu.q with
  | none => exact ⟨.muQ, rfl⟩
  | some q =>
    have hp : s.mu.qm1 = none := h.resolve_left (by simp [hq])
    rw [hp]
    exact ⟨.muQm1, rfl⟩

/-- In `OP` MU's moment reads `A`, and `M` where the pair selects a subtraction or an addition (R84, R85, R86). -/
theorem runAgent_mu_operation {q : Nibble} {p : Bit} (hst : s.mu.st = .op) (hq : s.mu.q = some q)
    (hp : s.mu.qm1 = some p) :
    runAgent .mu s = readReg .muA s.mu.a fun a =>
      if controlPair q p = 0b10#2 then readReg .muM s.mu.m fun m => muOperation .sub (sub a m) q p s
      else if controlPair q p = 0b01#2 then readReg .muM s.mu.m fun m => muOperation .add (add a m) q p s
      else muOperation .nop a q p s := by
  rw [runAgent_mu_of_op hst hq hp]
  have hcases : ∀ c : Pair, c = 0b10#2 ∨ c = 0b01#2 ∨ c = 0b00#2 ∨ c = 0b11#2 := by decide
  rcases hcases (controlPair q p) with hc | hc | hc | hc
  · simp [decodePair, exec, execMuSub, inMuPair, inMuState, hst, hq, hp, hc]
  · simp [decodePair, exec, execMuAdd, inMuPair, inMuState, hst, hq, hp, hc]
  · simp [decodePair, exec, execMuNop00, muNoOperation, inMuPair, inMuState, hst, hq, hp, hc]
  · simp [decodePair, exec, execMuNop11, muNoOperation, inMuPair, inMuState, hst, hq, hp, hc]

/-- In `ADJUST` DU's moment reads `M` and `Q`, whatever the sign (R101, R102). -/
theorem runAgent_du_adjust {a : Acc} (hst : s.du.st = .adjust) (ha : s.du.a = some a) :
    runAgent .du s = readReg .duM s.du.m fun m => readReg .duQ s.du.q fun q =>
      if signBit a = 0#1 then duAdjustStep .sub (sub a m) q s else duAdjustStep .add (add a m) q s := by
  rw [runAgent_du_of_adjust hst ha]
  by_cases hs : signBit a = 0#1
  · simp [decodeAdjust, exec, execDuSub, inDuAdjust, inDuState, hst, ha, hs]
  · have hs' := bit_eq_one_of_ne_zero _ hs
    simp [decodeAdjust, exec, execDuAdd, inDuAdjust, inDuState, hst, ha, hs']

/-- In its state, a state-selected step of MU runs. -/
theorem inMuState_of_eq {i : Instr} {st : MuSt} {body : Out} (h : s.mu.st = st) : inMuState i st s body = body := if_pos h

/-- In its state, a state-selected step of DU runs. -/
theorem inDuState_of_eq {i : Instr} {st : DuSt} {body : Out} (h : s.du.st = st) : inDuState i st s body = body := if_pos h

end Selected

/-- Settles O33: in each running state the moment is a chain of reads, in the order in which the statement names the registers. -/
theorem readingUnwrittenRegisterFaults : Obligations.ReadingUnwrittenRegisterFaults := by
  intro s
  refine ⟨?op, ?opM, ?muShift, ?muFinal, ?duShift, ?adjust, ?setq0, ?restore, ?duFinal⟩
  case op =>
    intro hst h
    by_cases hpair : s.mu.q = none ∨ s.mu.qm1 = none
    · exact runAgent_mu_faults_of_no_pair hst hpair
    · obtain ⟨hq, hp⟩ := not_or.mp hpair
      obtain ⟨q, hq'⟩ := Option.ne_none_iff_exists'.mp hq
      obtain ⟨p, hp'⟩ := Option.ne_none_iff_exists'.mp hp
      rw [runAgent_mu_operation hst hq' hp']
      exact readReg_faults (.inl ((h.resolve_left hq).resolve_left hp))
  case opM =>
    intro q p hst hq hp hne hm
    rw [runAgent_mu_operation hst hq hp]
    refine readReg_faults (.inr fun a => ?_)
    rcases controlPair_of_ne hne with hc | hc <;>
    · simp [hc, hm]
  case muShift =>
    intro hst h
    rw [runAgent_mu_of_ne_op (by simp [hst]), hst, runCode_ok rfl, exec, execMuAsr, inMuState_of_eq hst]
    exact readReg_faults (h.imp_right fun h _ => readReg_faults (h.imp_right fun h _ =>
      readReg_faults (h.imp_right fun h _ => readReg_faults (.inl h))))
  case muFinal =>
    intro hst h
    rw [runAgent_mu_of_ne_op (by simp [hst]), hst, runCode_ok rfl, exec, execMuFinal, inMuState_of_eq hst]
    exact readReg_faults (h.imp_right fun h _ => readReg_faults (h.imp_right fun h _ =>
      readReg_faults (h.imp_right fun h _ => readReg_faults (h.imp_right fun h _ => readReg_faults (.inl h)))))
  case duShift =>
    intro hst h
    rw [runAgent_du_of_seq (by simp [hst]) (by simp [hst]), hst, runCode_ok rfl, exec, execDuShl, inDuState_of_eq hst]
    exact readReg_faults (h.imp_right fun h _ => readReg_faults (.inl h))
  case adjust =>
    intro hst h
    cases ha : s.du.a with
    | none =>
      rw [runAgent_du, Du.codeWord, hst, ha]
      exact ⟨.duA, rfl⟩
    | some a =>
      rw [runAgent_du_adjust hst ha]
      exact readReg_faults ((h.resolve_left (by simp [ha])).imp_right fun h _ => readReg_faults (.inl h))
  case setq0 =>
    intro hst h
    rw [runAgent_du_of_seq (by simp [hst]) (by simp [hst]), hst, runCode_ok rfl, exec, execDuSetq0, inDuState_of_eq hst]
    exact readReg_faults (h.imp_right fun h _ => readReg_faults (h.imp_right fun h _ => readReg_faults (.inl h)))
  case restore =>
    intro hst h
    rw [runAgent_du_of_restore hst, execDuRestore, inDuState_of_eq hst]
    exact readReg_faults (h.imp_right fun h _ => readReg_faults (h.imp_right fun h _ => readReg_faults (.inl h)))
  case duFinal =>
    intro hst h
    rw [runAgent_du_of_seq (by simp [hst]) (by simp [hst]), hst, runCode_ok rfl, exec, execDuFinal, inDuState_of_eq hst]
    exact readReg_faults (h.imp_right fun h _ => readReg_faults (h.imp_right fun h _ =>
      readReg_faults (h.imp_right fun h _ => readReg_faults (.inl h))))

end Sys2Proof.Machine

namespace Sys2Proof.Machine

/-! ## The trace -/

/-- A micro-step of MU runs in a busy MU and appends one record, numbered by the record counter (R13, R46). -/
theorem Mu.Micro.appends_record {m m' : Mu} (h : m.Micro m') :
    m.busy = true ∧ ∃ r, m'.trace = m.trace ++ [r] ∧ r.idx = m.n := by
  cases h with
  | operation hst | shift hst | final hst => exact ⟨m.busy_iff.mpr (by simp [hst]), _, rfl, rfl⟩

/-- A micro-step of DU runs in a busy DU and appends one record, numbered by the record counter (R13, R46). -/
theorem Du.Micro.appends_record {d d' : Du} (h : d.Micro d') :
    d.busy = true ∧ ∃ r, d'.trace = d.trace ++ [r] ∧ r.idx = d.n := by
  cases h with
  | shift hst | adjust hst | setq0 hst | restore hst | final hst => exact ⟨d.busy_iff.mpr (by simp [hst]), _, rfl, rfl⟩

/-- What a step can make of MU's trace. -/
theorem Mu.ChangesTo.trace_grows {m m' : Mu} (h : m.ChangesTo m') :
    m'.trace = m.trace ∨ (m.busy = true ∧ ∃ r, m'.trace = m.trace ++ [r] ∧ r.idx = m.n) ∨
      m' = Mu.blank ∨ (m.busy = false ∧ ∃ x y, m' = Mu.start x y) := by
  cases h with
  | stays => exact .inl rfl
  | micro h => exact .inr (.inl h.appends_record)
  | reset => exact .inr (.inr (.inl rfl))
  | start x y hb => exact .inr (.inr (.inr ⟨hb, x, y, rfl⟩))

/-- What a step can make of DU's trace. -/
theorem Du.ChangesTo.trace_grows {d d' : Du} (h : d.ChangesTo d') :
    d'.trace = d.trace ∨ (d.busy = true ∧ ∃ r, d'.trace = d.trace ++ [r] ∧ r.idx = d.n) ∨
      d' = Du.blank ∨ (d.busy = false ∧ ∃ x, d' = Du.startZero x ∨ ∃ y, d' = Du.start x y) := by
  cases h with
  | stays => exact .inl rfl
  | micro h => exact .inr (.inl h.appends_record)
  | reset => exact .inr (.inr (.inl rfl))
  | start x y _ hb => exact .inr (.inr (.inr ⟨hb, x, .inr ⟨y, rfl⟩⟩))
  | startZero x hb => exact .inr (.inr (.inr ⟨hb, x, .inl rfl⟩))

/-- Settles O44: of all that a step can make of a unit, only a micro-step appends, and only reset and the start step replace. -/
theorem traceOnlyGrowsWithinARun : Obligations.TraceOnlyGrowsWithinARun := by
  intro s t h
  obtain ⟨hmu, hdu⟩ := step_changes h
  exact ⟨hmu.trace_grows, hdu.trace_grows⟩

/-! ## The host's reads and waits -/

/-- At a scheduled moment of the host its next move is made. -/
theorem step_hostMove {s : State} {m : HostMove} {rest : List HostMove} {ts : List Turn}
    (hs : s.sched = ⟨.host, false⟩ :: ts) (hh : s.host = m :: rest) :
    step s = hostMove m rest { s with sched := ts } := by
  rw [step_cons hs, runTurn_plain, runAgent_host, runHost, hh]

/-- A wait on a unit that is not busy is made, and has no other effect (R136). -/
theorem hostMove_wait_of_not_busy {s : State} {u : UnitName} {rest : List HostMove} (hb : s.busy u = false) :
    hostMove (.wait u) rest s = .next { s with host := rest } :=
  if_neg (by simp [hb])

/-- A wait on a busy unit stays the host's next move (R136). -/
theorem hostMove_wait_of_busy {s : State} {u : UnitName} {rest : List HostMove} (hb : s.busy u = true) :
    hostMove (.wait u) rest s = .next s :=
  if_pos hb

/-- Settles O47: the moment makes the host's next move; a read answers from the unit, a wait looks at its busy level alone. -/
theorem readsAndWaitsChangeNoUnit : Obligations.ReadsAndWaitsChangeNoUnit := by
  intro s rest ts hs
  refine ⟨?muStatus, ?duStatus, ?muTrace, ?duTrace, fun u hh => ⟨fun hb => ?waitFree, fun hb => ?waitBusy⟩⟩
  case muStatus | duStatus | muTrace | duTrace => exact step_hostMove hs
  case waitFree => exact (step_hostMove hs hh).trans (hostMove_wait_of_not_busy hb)
  case waitBusy => exact (step_hostMove hs hh).trans (hostMove_wait_of_busy hb)

end Sys2Proof.Machine

namespace Sys2Proof

/-! ## The command word and the code words -/

/-- A one-bit field is 0 exactly when its bit is not set. -/
theorem extractLsb'_one_eq_zero_iff {n : Nat} (v : BitVec n) (i : Nat) : v.extractLsb' i 1 = 0#1 ↔ v.getLsbD i = false := by
  rw [BitVec.eq_of_getLsbD_eq_iff]
  simp

/-- What a command word decodes to, by its `op` field and its operand `b` (R52, R55). -/
theorem decodeCommand_cases (w : Cmd) :
    (opField w = 0#1 ∧ decodeCommand w = .mul (fieldA w) (fieldB w)) ∨
    (opField w = 1#1 ∧ fieldB w = 0#4 ∧ decodeCommand w = .divZero (fieldA w)) ∨
    (opField w = 1#1 ∧ fieldB w ≠ 0#4 ∧ decodeCommand w = .div (fieldA w) (fieldB w)) := by
  by_cases hop : opField w = 0#1
  · exact .inl ⟨hop, if_pos hop⟩
  · have hdiv := bit_eq_one_of_ne_zero _ hop
    by_cases hb : fieldB w = 0#4
    · exact .inr (.inl ⟨hdiv, hb, by rw [decodeCommand, if_neg hop, if_pos hb]⟩)
    · exact .inr (.inr ⟨hdiv, hb, by rw [decodeCommand, if_neg hop, if_neg hb]⟩)

/-- The code word of a command is the word it was decoded from: no bit of it is dropped. -/
theorem encode_decodeCommand (w : Cmd) : encode (decodeCommand w) = .cmd9 w := by
  have hw := packCommand_fields w
  rcases decodeCommand_cases w with ⟨hop, hi⟩ | ⟨hop, hb, hi⟩ | ⟨hop, -, hi⟩
  · rw [hi, encode, ← hop, hw]
  · rw [hi, encode, ← hop, ← hb, hw]
  · rw [hi, encode, ← hop, hw]

/-- Decoding the code word of an instruction that stands for a row of the table gives the instruction back. -/
theorem decode_encode {i : Instr} (hi : i.wellFormed = true) : decode (encode i) = .ok i := by
  cases i with
  | mul x y | divZero x => simp [encode, decode, decodeCommand]
  | div x d =>
    have hd : d ≠ 0#4 := bne_iff_ne.mp hi
    simp [encode, decode, decodeCommand, hd]
  | muSub | muAdd | muNop00 | muNop11 | muAsr | muFinal => rfl
  | duShl | duSub | duAdd | duSetq0 | duRestore | duFinal => rfl

/-- The control pair of the operation step that it selects (R58). -/
theorem encode_decodePair (c : Pair) : encode (decodePair c) = .muPair c := by
  revert c; decide

/-- The sign of the adjust step that it selects (R59). -/
theorem encode_decodeAdjust (sign : Bit) : encode (decodeAdjust sign) = .duAdjust sign := by
  revert sign; decide

/-- A code word that selects an instruction is that instruction's code word. -/
theorem encode_of_decode {c : CodeWord} {i : Instr} (h : decode c = .ok i) : encode i = c := by
  cases c with
  | cmd9 w => cases h; exact encode_decodeCommand w
  | muPair c => cases h; exact encode_decodePair c
  | muSeq st => cases st <;> cases h <;> rfl
  | duAdjust sign => cases h; exact encode_decodeAdjust sign
  | duCorrect sign =>
    simp only [decode, decodeCorrect] at h
    split at h <;> cases h
    subst sign
    rfl
  | duSeq st => cases st <;> cases h <;> rfl

/-- Settles O12: one way by the rows of the table, the other way by the formats of the code words. -/
theorem decodeAndEncodeAgree : Obligations.DecodeAndEncodeAgree :=
  ⟨fun _ => decode_encode, fun _ _ h => ⟨Machine.decode_wellFormed h, encode_of_decode h⟩⟩

/-- A number below 512 has its `op` field clear exactly below 256 (R51). -/
theorem opField_ofNat_eq_zero_iff {n : Nat} (h : n < 512) : opField (BitVec.ofNat 9 n) = 0#1 ↔ n < 256 := by
  rw [opField, ← BitVec.toNat_inj, BitVec.extractLsb'_toNat, BitVec.toNat_ofNat, BitVec.toNat_ofNat, Nat.shiftRight_eq_div_pow]
  omega

/-- The last four bits of a number are 0 exactly when it is a multiple of 16 (R51). -/
theorem fieldB_ofNat_eq_zero_iff (n : Nat) : fieldB (BitVec.ofNat 9 n) = 0#4 ↔ n % 16 = 0 := by
  rw [fieldB, ← BitVec.toNat_inj, BitVec.extractLsb'_toNat, BitVec.toNat_ofNat, BitVec.toNat_ofNat, Nat.shiftRight_zero]
  omega

/-- A command acts on MU exactly when bit 8 of its word is 0 (R52). -/
theorem decodeCommand_unit_eq_mu_iff (w : Cmd) : (decodeCommand w).unit = .mu ↔ opField w = 0#1 := by
  rcases decodeCommand_cases w with ⟨hop, hi⟩ | ⟨hop, -, hi⟩ | ⟨hop, -, hi⟩ <;>
  · simp [hi, hop, Instr.unit]

/-- A command word is the divide-by-zero row exactly when it is a DIV with `b = 0000` (R55). -/
theorem decodeCommand_eq_divZero_iff (w : Cmd) :
    (∃ x, decodeCommand w = .divZero x) ↔ opField w ≠ 0#1 ∧ fieldB w = 0#4 := by
  rcases decodeCommand_cases w with ⟨hop, hi⟩ | ⟨hop, hb, hi⟩ | ⟨hop, hb, hi⟩
  · simp [hi, hop]
  · simp [hi, hop, hb]
  · simp [hi, hb]

/-- Settles O10: a number below 512 is its 9-bit word, and the fields of that word are remainders and quotients of the number. -/
theorem everyCommandWordIsValid : Obligations.EveryCommandWordIsValid := by
  refine ⟨fun n hn => ?word, fun n hn => if_neg (Nat.not_lt.mpr hn)⟩
  obtain ⟨hcommand, hwf⟩ := Machine.decodeCommand_spec (BitVec.ofNat 9 n)
  refine ⟨decodeCommand (BitVec.ofNat 9 n), if_pos hn, hcommand, hwf, ?unit, ?divZero⟩
  case unit => rw [decodeCommand_unit_eq_mu_iff, opField_ofNat_eq_zero_iff hn]
  case divZero =>
    rw [decodeCommand_eq_divZero_iff, Ne, opField_ofNat_eq_zero_iff hn, Nat.not_lt, fieldB_ofNat_eq_zero_iff]

/-- Settles O11: the `op` field is bit 8. -/
theorem commandWordLayout : Obligations.CommandWordLayout := by
  intro w
  have hop := extractLsb'_one_eq_zero_iff w 8
  by_cases h : w.getLsbD 8 = false
  · have hmul : opField w = 0#1 := hop.mpr h
    rw [decode, decodeCommand, CodeWord.unit, if_pos hmul, if_pos hmul, if_pos h, if_pos h]
    exact ⟨rfl, rfl⟩
  · have hdiv : opField w ≠ 0#1 := mt hop.mp h
    rw [decode, decodeCommand, CodeWord.unit, if_neg hdiv, if_neg hdiv, if_neg h, if_neg h]
    exact ⟨rfl, rfl⟩

/-- Settles O13: each word is closed, so the decoder computes what it selects. -/
theorem wordsFromTheTablesDecode : Obligations.WordsFromTheTablesDecode :=
  ⟨rfl, rfl, rfl, rfl, rfl, rfl, rfl, rfl, rfl, rfl, rfl⟩

end Sys2Proof

namespace Sys2Proof.Machine

/-- Settles O15: the sign bit is bit 4 of `A`. -/
theorem shiftedSignSelectsTheAdjust : Obligations.ShiftedSignSelectsTheAdjust := by
  intro d a hst ha
  have hsign := extractLsb'_one_eq_zero_iff a 4
  refine ⟨?select, ?step⟩
  case select =>
    rw [Du.codeWord, hst, ha]
    rfl
  case step =>
    by_cases h : a.getLsbD 4 = false
    · rw [decode, decodeAdjust, if_pos (hsign.mpr h), if_pos h]
    · rw [decode, decodeAdjust, if_neg (mt hsign.mp h), if_neg h]

/-! ## The divisor as it is loaded -/

/-- Zero extension keeps the unsigned value (R77). -/
theorem zext5_toNat (b : Nibble) : (zext5 b).toNat = b.toNat := by
  have happend : (zext5 b).toNat = (0#1).toNat <<< 4 ||| b.toNat := BitVec.toNat_append _ _
  simpa using happend

/-- Settles O9: a 5-bit value below 16 has its sign bit clear. -/
theorem divisorIsZeroExtended : Obligations.DivisorIsZeroExtended := by
  refine fun b => ⟨rfl, zext5_toNat b, ?signed⟩
  have hlt : 2 * (zext5 b).toNat < 2 ^ 5 := by
    rw [zext5_toNat]
    omega
  rw [sval_eq_toInt, BitVec.toInt_eq_toNat_of_lt hlt, zext5_toNat]

/-! ## Issuing a command -/

/-- A command to MU answers, refused or not (R55). -/
theorem startMu_eq (m : Mu) (s : State) :
    startMu m s = .next (if s.mu.busy = true then s.refuseCommand else { s with mu := m }) := by
  unfold startMu; split <;> rfl

/-- A command to DU answers, refused or not (R55). -/
theorem startDu_eq (d : Du) (s : State) :
    startDu d s = .next (if s.du.busy = true then s.refuseCommand else { s with du := d }) := by
  unfold startDu; split <;> rfl

/-- `MUL` is a command to MU (R82). -/
theorem exec_mul (x y : Nibble) (s : State) : exec (.mul x y) s = startMu (Mu.start x y) s := rfl

/-- `DIV` with a non-zero divisor is a command to DU (R97). -/
theorem exec_div {d : Nibble} (hd : d ≠ 0#4) (x : Nibble) (s : State) : exec (.div x d) s = startDu (Du.start x d) s := by
  rw [exec, execDiv, if_neg hd]

/-- `DIV` with the divisor 0000 is a command to DU (R98). -/
theorem exec_divZero (x : Nibble) (s : State) : exec (.divZero x) s = startDu (Du.startZero x) s := rfl

/-- Settles O20: the moment runs the command the word decodes to, and each command is a start of its unit. -/
theorem issuingACommandWord : Obligations.IssuingACommandWord := by
  intro s w rest ts hh hs
  obtain ⟨hdecode, -⟩ := commandWordLayout w
  rw [step_hostMove hs hh, hostMove, runCode_ok hdecode]
  by_cases hop : w.getLsbD 8 = false
  · rw [if_pos hop, if_pos hop, if_pos hop, exec_mul, startMu_eq]
    rfl
  · rw [if_neg hop, if_neg hop, if_neg hop]
    by_cases hb : w.extractLsb' 0 4 = 0#4
    · rw [if_pos hb, if_pos hb, exec_divZero, startDu_eq]
      rfl
    · rw [if_neg hb, if_neg hb, exec_div hb, startDu_eq]
      rfl

/-! ## The text of an operand -/

/-- An operand of a wrong length is refused with its length (R54). -/
theorem parseOperand_of_length_ne {index : Nat} {cs : List Char} (h : cs.length ≠ 4) :
    parseOperand index cs = .error (.operandLength index cs.length) := if_pos h

/-- The binary digits. -/
theorem isBit_iff (c : Char) : isBit c = true ↔ c = '0' ∨ c = '1' := by
  simp [isBit]

/-- No character is refused exactly when all are binary digits. -/
theorem find?_not_isBit_eq_none_iff (cs : List Char) :
    cs.find? (fun c => !isBit c) = none ↔ ∀ c ∈ cs, c = '0' ∨ c = '1' := by
  simp [isBit_iff]

/-- The operands that are accepted, and with which value (R54, R63). -/
theorem parseOperand_eq_ok_iff {index : Nat} {cs : List Char} {b : Nibble} :
    parseOperand index cs = .ok b ↔
      (cs.length = 4 ∧ ∀ c ∈ cs, c = '0' ∨ c = '1') ∧ BitVec.ofNat 4 (bitsValue cs) = b := by
  by_cases hlen : cs.length = 4
  · rw [← find?_not_isBit_eq_none_iff, parseOperand, if_neg (not_not.mpr hlen)]
    cases cs.find? (fun c => !isBit c) with
    | some c => simp
    | none => simp [hlen]
  · simp [parseOperand_of_length_ne hlen, hlen]

/-- A binary digit spells a bit. -/
theorem exists_eq_bitChar_of_digit {c : Char} (h : c = '0' ∨ c = '1') : ∃ v, c = bitChar v := by
  rcases h with rfl | rfl
  · exact ⟨false, rfl⟩
  · exact ⟨true, rfl⟩

/-- The value of four digits spells them again: nothing is padded or truncated (R54). -/
theorem operandText_bitsValue {cs : List Char} (hlen : cs.length = 4) (hbits : ∀ c ∈ cs, c = '0' ∨ c = '1') :
    operandText (BitVec.ofNat 4 (bitsValue cs)) = cs := by
  obtain ⟨c₃, c₂, c₁, c₀, rfl⟩ := List.length_eq_four.mp hlen
  simp only [List.forall_mem_cons] at hbits
  obtain ⟨h₃, h₂, h₁, h₀, -⟩ := hbits
  obtain ⟨v₃, rfl⟩ := exists_eq_bitChar_of_digit h₃
  obtain ⟨v₂, rfl⟩ := exists_eq_bitChar_of_digit h₂
  obtain ⟨v₁, rfl⟩ := exists_eq_bitChar_of_digit h₁
  obtain ⟨v₀, rfl⟩ := exists_eq_bitChar_of_digit h₀
  clear h₃ h₂ h₁ h₀ hlen
  revert v₃ v₂ v₁ v₀
  decide

/-- Settles O60: an operand is accepted exactly when it is four digits, and then with their value. -/
theorem malformedOperandIsRefused : Obligations.MalformedOperandIsRefused := by
  intro index cs
  refine ⟨?accepted, parseOperand_of_length_ne, ?spelled⟩
  case accepted => simp [parseOperand_eq_ok_iff]
  case spelled =>
    intro b h
    obtain ⟨⟨hlen, hbits⟩, rfl⟩ := parseOperand_eq_ok_iff.mp h
    exact operandText_bitsValue hlen hbits

/-! ## The text of a command -/

/-- A bit is spelled by a binary digit. -/
theorem bitChar_digit (v : Bool) : bitChar v = '0' ∨ bitChar v = '1' := by
  cases v
  · exact .inl rfl
  · exact .inr rfl

/-- The characters of an operand's spelling are binary digits. -/
theorem digit_of_mem_operandText {b : Nibble} {c : Char} (h : c ∈ operandText b) : c = '0' ∨ c = '1' := by
  simp only [operandText, List.mem_cons, List.not_mem_nil, or_false] at h
  rcases h with rfl | rfl | rfl | rfl <;>
  · exact bitChar_digit _

/-- The spelling of an operand is read back as the operand (R63). -/
theorem parseOperand_operandText (index : Nat) (b : Nibble) : parseOperand index (operandText b) = .ok b := by
  have hvalue : BitVec.ofNat 4 (bitsValue (operandText b)) = b := by revert b; decide
  exact parseOperand_eq_ok_iff.mpr ⟨⟨rfl, fun _ => digit_of_mem_operandText⟩, hvalue⟩

/-- The spelling of the two operands of a command word (R63). -/
def operandsText (w : Cmd) : List Char := operandText (fieldA w) ++ [',', ' '] ++ operandText (fieldB w)

/-- The text of a MUL word is its mnemonic and its operands. -/
theorem commandText_of_mul {w : Cmd} (h : opField w = 0#1) : commandText w = 'M' :: 'U' :: 'L' :: ' ' :: operandsText w := by
  rw [commandText, if_pos h]
  rfl

/-- The text of a DIV word is its mnemonic and its operands. -/
theorem commandText_of_div {w : Cmd} (h : opField w ≠ 0#1) : commandText w = 'D' :: 'I' :: 'V' :: ' ' :: operandsText w := by
  rw [commandText, if_neg h]
  rfl

/-- The operands' spelling is read back: the comma that separates them is its first, since the digits before it are none. -/
theorem parseOperands_operandsText (w : Cmd) : parseOperands (operandsText w) = .ok (fieldA w, fieldB w) := by
  have hcomma : ∀ c ∈ operandText (fieldA w), decide (c ≠ ',') = true := by
    intro c hc
    rcases digit_of_mem_operandText hc with rfl | rfl <;> decide
  have hfirst : (operandsText w).takeWhile (· ≠ ',') = operandText (fieldA w) := by
    rw [operandsText, List.append_assoc, List.takeWhile_append_of_pos hcomma]
    simp
  have hrest : (operandsText w).dropWhile (· ≠ ',') = ',' :: ' ' :: operandText (fieldB w) := by
    rw [operandsText, List.append_assoc, List.dropWhile_append_of_pos hcomma]
    rfl
  simp only [parseOperands, hfirst, hrest, parseOperand_operandText]

/-- The operands' spelling stands for the command word of their fields. -/
theorem parseCommand_operandsText (op : Bit) (w : Cmd) :
    parseCommand op (operandsText w) = .ok [.issue (packCommand op (fieldA w) (fieldB w))] := by
  rw [parseCommand, parseOperands_operandsText]

/-- A text that begins with no blank has none to drop. -/
theorem dropWhile_blank_eq_self {cs : List Char} (h : cs.head? ≠ some ' ') : cs.dropWhile (· = ' ') = cs := by
  cases cs with
  | nil => rfl
  | cons c cs => exact List.dropWhile_cons_of_neg (by simpa using h)

/-- A line without a comment and without blanks around it is its own body (R63). -/
theorem lineBody_eq_self {cs : List Char} (hcomment : ';' ∉ cs) (hfirst : cs.head? ≠ some ' ')
    (hlast : cs.getLast? ≠ some ' ') : lineBody cs = cs := by
  have hall : cs.takeWhile (· ≠ ';') = cs :=
    List.takeWhile_eq_self_iff.mpr fun c hc => decide_eq_true (ne_of_mem_of_not_mem hc hcomment)
  rw [lineBody, hall, dropWhile_blank_eq_self hfirst, dropWhile_blank_eq_self (by rwa [List.head?_reverse]),
    List.reverse_reverse]

/-- The operands' spelling has no comment. -/
theorem semicolon_notMem_operandsText (w : Cmd) : ';' ∉ operandsText w := by
  have hdigits (b : Nibble) : ';' ∉ operandText b := fun h => absurd (digit_of_mem_operandText h) (by decide)
  simp [operandsText, hdigits]

/-- The operands' spelling ends with a digit. -/
theorem getLast?_operandsText (w : Cmd) : (operandsText w).getLast? = some (bitChar (fieldB w)[0]) := by
  simp [operandsText, operandText]

/-- A mnemonic's letters before the operands' spelling leave a line that is its own body. -/
theorem lineBody_append_operandsText {c : Char} {cs : List Char} (w : Cmd) (hcomment : ';' ∉ c :: cs) (hfirst : c ≠ ' ') :
    lineBody (c :: cs ++ operandsText w) = c :: cs ++ operandsText w := by
  refine lineBody_eq_self ?comment ?first ?last
  case comment =>
    rw [List.mem_append, not_or]
    exact ⟨hcomment, semicolon_notMem_operandsText w⟩
  case first => simpa using hfirst
  case last =>
    rw [List.getLast?_append, getLast?_operandsText]
    rcases bitChar_digit (fieldB w)[0] with h | h <;> simp [h]

/-- The text of a command word is its own line body. -/
theorem lineBody_commandText (w : Cmd) : lineBody (commandText w) = commandText w := by
  by_cases hop : opField w = 0#1
  · rw [commandText_of_mul hop]
    exact lineBody_append_operandsText (cs := ['U', 'L', ' ']) w (by decide) (by decide)
  · rw [commandText_of_div hop]
    exact lineBody_append_operandsText (cs := ['I', 'V', ' ']) w (by decide) (by decide)

/-- Settles O59: a text is its own line body, its mnemonic gives the `op` field and its operands the other two fields. -/
theorem commandTextIsReadBack : Obligations.CommandTextIsReadBack := by
  refine ⟨fun w => ?command, by decide, by decide, by decide, by decide⟩
  have hfields := packCommand_fields w
  rw [parseLine, lineBody_commandText]
  by_cases hop : opField w = 0#1
  · rw [hop] at hfields
    rw [commandText_of_mul hop]
    exact (parseCommand_operandsText 0#1 w).trans (by rw [hfields])
  · rw [bit_eq_one_of_ne_zero _ hop] at hfields
    rw [commandText_of_div hop]
    exact (parseCommand_operandsText 1#1 w).trans (by rw [hfields])

end Sys2Proof.Machine

namespace Sys2Proof.Machine

variable {w : Nat}

/-! ## The arithmetic primitives -/

/-- Settles O4: the inversion plus 1 is the library's negation. -/
theorem complementNegatesModulo : Obligations.ComplementNegatesModulo := by
  refine fun w b => ⟨?invert, ?negate⟩
  case invert => rw [complement, BitVec.toNat_add, BitVec.toNat_ofNat, Nat.add_mod_mod]
  case negate => rw [complement_eq_neg, BitVec.toNat_neg]

/-- The modular subtraction is the difference modulo `2^w` (R72). -/
theorem sub_toNat (a b : BitVec w) : ((sub a b).toNat : Int) = ((a.toNat : Int) - (b.toNat : Int)) % (2 ^ w : Int) := by
  rw [sub_eq, BitVec.toNat_sub]
  push_cast [Nat.cast_sub b.isLt.le]
  calc ((2 : Int) ^ w - b.toNat + a.toNat) % 2 ^ w
      = (a.toNat - b.toNat + 2 ^ w) % 2 ^ w := by congr 1; ring
    _ = (a.toNat - b.toNat) % 2 ^ w := Int.add_emod_right ..

/-- Settles O5: the addition is the library's, and the difference borrows from `2^w`. -/
theorem addAndSubtractWrapModulo : Obligations.AddAndSubtractWrapModulo :=
  fun _ a b => ⟨BitVec.toNat_add a b, rfl, sub_toNat a b⟩

/-- The signed reading weighs the sign bit with `-2^w` more than the unsigned one (R75). -/
theorem sval_eq_toNat_sub (b : BitVec w) : sval b = (b.toNat : Int) - (if b.msb then 1 else 0) * (2 ^ w : Int) := by
  rw [sval_eq_toInt, BitVec.toInt_eq_msb_cond]
  cases b.msb <;> simp

/-- Settles O6: the first form is the definition, the other two are the library's signed value. -/
theorem signedReadingOfABitString : Obligations.SignedReadingOfABitString := by
  refine ⟨fun _ _ => rfl, fun _ b => sval_eq_toNat_sub b, fun w hw => ?mostNegative⟩
  rw [sval_eq_toInt, BitVec.toInt_intMin_of_pos hw]

/-! ## The shifts -/

/-- A shift right by 1 replicates the sign bit above the bits it keeps. -/
theorem sshiftRight_one_eq_append (c : BitVec (1 + w)) : c.sshiftRight 1 = c.extractLsb' w 1 ++ c.extractLsb' 1 w := by
  ext i hi
  rw [BitVec.getElem_sshiftRight, BitVec.getElem_append]
  by_cases h : i < w
  · rw [dif_pos (by omega), dif_pos h, BitVec.getElem_extractLsb', BitVec.getLsbD_eq_getElem]
  · obtain rfl : i = w := by omega
    simp [BitVec.msb_eq_getLsbD_last]

/-- A shift left by 1 drops the top bit and lets 0 enter below. -/
theorem shiftLeft_one_eq_append (c : BitVec (w + 1)) : c <<< 1 = c.extractLsb' 0 w ++ 0#1 := by
  cases w with
  | zero => decide +revert
  | succ w => exact BitVec.shiftLeft_eq_concat_of_lt (by omega)

/-- The bits cut from a concatenation, from within its low part to within its high part, are the bits cut from each part. -/
theorem extractLsb'_append_eq_append {v i : Nat} (m n : Nat) (x : BitVec v) (y : BitVec w) (h : i + n = w) :
    (x ++ y).extractLsb' i (m + n) = x.extractLsb' 0 m ++ y.extractLsb' i n := by
  ext j hj
  rw [BitVec.getElem_extractLsb', BitVec.getLsbD_append, BitVec.getElem_append]
  by_cases hlow : j < n
  · rw [if_pos (by omega), dif_pos hlow, BitVec.getElem_extractLsb']
  · rw [if_neg (by omega), dif_neg hlow, BitVec.getElem_extractLsb', show i + j - w = 0 + (j - n) by omega]

/-- The Booth shift drops `q` and puts the sign of `A` above `A ‖ Q` (R74). -/
theorem boothWord_sshiftRight (a q : Nibble) (p : Bit) :
    (boothWord a q p).sshiftRight 1 = a.extractLsb' 3 1 ++ (a ++ q) := by
  have hsign : (boothWord a q p).extractLsb' 8 1 = a.extractLsb' 3 1 :=
    (BitVec.extractLsb'_append_eq_of_le (by decide)).trans (BitVec.extractLsb'_append_eq_of_le (by decide))
  have hkept : (boothWord a q p).extractLsb' 1 8 = a ++ q := BitVec.extractLsb'_append_eq_left
  rw [sshiftRight_one_eq_append (w := 8), hsign, hkept]

/-- The fields of the Booth shift (R74). -/
theorem asr_fields (a q : Nibble) (p : Bit) :
    asr a q p = (a.extractLsb' 3 1 ++ a.extractLsb' 1 3, a.extractLsb' 0 1 ++ q.extractLsb' 1 3, q.extractLsb' 0 1) := by
  rw [asr, boothWord_sshiftRight]
  refine Prod.ext ?shiftedA (Prod.ext ?shiftedQ ?shiftedQm1)
  case shiftedA =>
    calc _ = (a.extractLsb' 3 1).extractLsb' 0 1 ++ (a ++ q).extractLsb' 5 3 :=
          extractLsb'_append_eq_append 1 3 (a.extractLsb' 3 1) (a ++ q) rfl
      _ = a.extractLsb' 3 1 ++ a.extractLsb' 1 3 := by
          rw [BitVec.extractLsb'_eq_self, BitVec.extractLsb'_append_eq_of_le (by decide)]
  case shiftedQ =>
    calc _ = (a ++ q).extractLsb' 1 4 := BitVec.extractLsb'_append_eq_of_add_le (by decide)
      _ = a.extractLsb' 0 1 ++ q.extractLsb' 1 3 := extractLsb'_append_eq_append 1 3 a q rfl
  case shiftedQm1 =>
    calc _ = (a ++ q).extractLsb' 0 1 := BitVec.extractLsb'_append_eq_of_add_le (by decide)
      _ = q.extractLsb' 0 1 := BitVec.extractLsb'_append_eq_of_add_le (by decide)

/-- The division shift drops the sign of `A` and puts 0 below `A[3:0] ‖ Q` (R76). -/
theorem divWord_shiftLeft (a : Acc) (q : Nibble) : divWord a q <<< 1 = a.extractLsb' 0 4 ++ q ++ 0#1 := by
  have hkept : (divWord a q).extractLsb' 0 8 = a.extractLsb' 0 4 ++ q.extractLsb' 0 4 :=
    extractLsb'_append_eq_append (i := 0) 4 4 a q rfl
  rw [shiftLeft_one_eq_append (w := 8), hkept, BitVec.extractLsb'_eq_self]

/-- The fields of the division shift (R76). -/
theorem shl_fields (a : Acc) (q : Nibble) :
    shl a q = (a.extractLsb' 0 4 ++ q.extractLsb' 3 1, q.extractLsb' 0 3 ++ 0#1) := by
  rw [shl, divWord_shiftLeft]
  refine Prod.ext ?shiftedA ?shiftedQ
  case shiftedA =>
    calc _ = (a.extractLsb' 0 4 ++ q).extractLsb' 3 5 := BitVec.extractLsb'_append_eq_of_le (by decide)
      _ = (a.extractLsb' 0 4).extractLsb' 0 4 ++ q.extractLsb' 3 1 :=
          extractLsb'_append_eq_append 4 1 (a.extractLsb' 0 4) q rfl
      _ = a.extractLsb' 0 4 ++ q.extractLsb' 3 1 := by rw [BitVec.extractLsb'_eq_self]
  case shiftedQ =>
    calc _ = (a.extractLsb' 0 4 ++ q).extractLsb' 0 3 ++ (0#1).extractLsb' 0 1 :=
          extractLsb'_append_eq_append 3 1 (a.extractLsb' 0 4 ++ q) 0#1 rfl
      _ = q.extractLsb' 0 3 ++ 0#1 := by
          rw [BitVec.extractLsb'_append_eq_of_add_le (by decide), BitVec.extractLsb'_eq_self]

/-- Settles O8: each shift is the rule's 9-bit word, of which the fields are cut. -/
theorem shiftFields : Obligations.ShiftFields := by
  refine ⟨fun a q p => ⟨?asrWord, asr_fields a q p⟩, fun a q => ⟨?shlWord, shl_fields a q⟩⟩
  case asrWord => rw [asr, sshiftRight_one_eq_append (w := 8), boothWord]
  case shlWord => rw [shl, shiftLeft_one_eq_append (w := 8), divWord]

end Sys2Proof.Machine

namespace Sys2Proof.Machine

/-! ## MU's meanings, run forward

What each micro-step of MU answers where the registers it reads hold values. The `_next` laws say the converse. -/

section Forward
variable {s : State} {a q x y : Nibble} {p : Bit} {k : Counter}

/-- Outside its state, a state-selected step of MU is refused. -/
theorem inMuState_of_ne {i : Instr} {st : MuSt} {body : Out} (h : s.mu.st ≠ st) :
    inMuState i st s body = .refused (.stepNotEnabled i) := if_neg h

/-- Outside its state, a state-selected step of DU is refused. -/
theorem inDuState_of_ne {i : Instr} {st : DuSt} {body : Out} (h : s.du.st ≠ st) :
    inDuState i st s body = .refused (.stepNotEnabled i) := if_neg h

/-- In `OP` the operation step runs that the control pair selects; every other one is refused (R58, R83). -/
theorem inMuPair_eq {i : Instr} {c : Pair} {body : Nibble → Bit → Out} (hst : s.mu.st = .op) (hq : s.mu.q = some q)
    (hp : s.mu.qm1 = some p) :
    inMuPair i c s body = if controlPair q p = c then body q p else .refused (.stepNotEnabled i) := by
  rw [inMuPair, inMuState_of_eq hst, hq, readReg_some, hp, readReg_some]

/-- In `ADJUST` the adjust step runs that the sign of `A` selects; the other one is refused (R59). -/
theorem inDuAdjust_eq {i : Instr} {sign : Bit} {a : Acc} {body : Acc → Out} (hst : s.du.st = .adjust)
    (ha : s.du.a = some a) :
    inDuAdjust i sign s body = if signBit a = sign then body a else .refused (.stepNotEnabled i) := by
  rw [inDuAdjust, inDuState_of_eq hst, ha, readReg_some]

theorem execMuSub_eq (hst : s.mu.st = .op) (ha : s.mu.a = some a) (hq : s.mu.q = some q) (hp : s.mu.qm1 = some p)
    (hx : s.mu.m = some x) (hc : controlPair q p = 0b10#2) :
    execMuSub s = .next
      { s with mu := { s.mu.emit .sub (sub a x) q p none with a := some (sub a x), st := .shift } } := by
  rw [execMuSub, inMuPair_eq hst hq hp, if_pos hc, ha, readReg_some, hx, readReg_some, muOperation]

theorem execMuAdd_eq (hst : s.mu.st = .op) (ha : s.mu.a = some a) (hq : s.mu.q = some q) (hp : s.mu.qm1 = some p)
    (hx : s.mu.m = some x) (hc : controlPair q p = 0b01#2) :
    execMuAdd s = .next
      { s with mu := { s.mu.emit .add (add a x) q p none with a := some (add a x), st := .shift } } := by
  rw [execMuAdd, inMuPair_eq hst hq hp, if_pos hc, ha, readReg_some, hx, readReg_some, muOperation]

theorem muNoOperation_eq {i : Instr} {c : Pair} (hst : s.mu.st = .op) (ha : s.mu.a = some a) (hq : s.mu.q = some q)
    (hp : s.mu.qm1 = some p) (hc : controlPair q p = c) :
    muNoOperation i c s = .next { s with mu := { s.mu.emit .nop a q p none with a := some a, st := .shift } } := by
  rw [muNoOperation, inMuPair_eq hst hq hp, if_pos hc, ha, readReg_some, muOperation]

theorem execMuAsr_eq (hst : s.mu.st = .shift) (ha : s.mu.a = some a) (hq : s.mu.q = some q) (hp : s.mu.qm1 = some p)
    (hk : s.mu.k = some k) :
    execMuAsr s = .next { s with mu := { s.mu.emit .asr (asr a q p).1 (asr a q p).2.1 (asr a q p).2.2 none with
      a := some (asr a q p).1
      q := some (asr a q p).2.1
      qm1 := some (asr a q p).2.2
      k := some (k + 1#3)
      st := if k + 1#3 = Config.iterations then .final else .op } } := by
  rw [execMuAsr, inMuState_of_eq hst, ha, readReg_some, hq, readReg_some, hp, readReg_some, hk, readReg_some]

theorem execMuFinal_eq (hst : s.mu.st = .final) (ha : s.mu.a = some a) (hq : s.mu.q = some q) (hp : s.mu.qm1 = some p)
    (hx : s.mu.m = some x) (hy : s.mu.y = some y) :
    execMuFinal s = .next { s with mu := { s.mu.emit .final a q p (some
      { p := product a q, pDec := sval (product a q), mDec := sval x, yDec := sval y }) with st := .done } } := by
  rw [execMuFinal, inMuState_of_eq hst, ha, readReg_some, hq, readReg_some, hp, readReg_some, hx, readReg_some, hy,
    readReg_some]

end Forward

/-! ## The control pair -/

/-- A one-bit field is its bit. -/
theorem extractLsb'_one_eq_ofBool {n : Nat} (v : BitVec n) (i : Nat) : v.extractLsb' i 1 = BitVec.ofBool (v.getLsbD i) := by
  ext j hj
  obtain rfl : j = 0 := by omega
  simp

/-- The control pair, bit by bit (R83). -/
theorem controlPair_eq_ofBool (q : Nibble) (p : Bit) :
    controlPair q p = BitVec.ofBool (q.getLsbD 0) ++ BitVec.ofBool (p.getLsbD 0) := by
  rw [controlPair, extractLsb'_one_eq_ofBool, ← extractLsb'_one_eq_ofBool p, BitVec.extractLsb'_eq_self]

/-- Settles O14: the pair's two bits are those of the registers, and the table has one row for each. -/
theorem controlPairSelectsTheOperation : Obligations.ControlPairSelectsTheOperation := by
  intro m q p hst hq hp
  refine ⟨?select, ?table⟩
  case select =>
    rw [Mu.codeWord, hst, hq, hp]
    rfl
  case table =>
    change Except.ok (decodePair (controlPair q p)) = _
    rw [controlPair_eq_ofBool]
    cases q.getLsbD 0 <;> cases p.getLsbD 0 <;> rfl

/-! ## The start step -/

/-- Settles O16: the command starts a quiescent MU and is refused by a busy one. -/
theorem mulStartsABoothRun : Obligations.MulStartsABoothRun := by
  intro x y s
  rw [exec_mul, startMu_eq]
  refine ⟨fun hst => ?starts, fun hb => ?refused⟩
  case starts =>
    rw [if_neg (by simp [s.mu.busy_eq_false_iff.mpr hst])]
    rfl
  case refused =>
    rw [if_pos hb]
    rfl

/-! ## The micro-steps -/

/-- Settles O21: the subtraction is the library's. -/
theorem boothSubtractStep : Obligations.BoothSubtractStep := by
  intro s a q m p hst ha hq hp hm hq0 rfl
  rw [exec, execMuSub_eq hst ha hq hp hm (by rw [controlPair_eq_ofBool, hq0]; rfl), sub_eq]
  rfl

/-- Settles O22: the addition is the library's. -/
theorem boothAddStep : Obligations.BoothAddStep := by
  intro s a q m p hst ha hq hp hm hq0 rfl
  rw [exec, execMuAdd_eq hst ha hq hp hm (by rw [controlPair_eq_ofBool, hq0]; rfl), add_eq]
  rfl

/-- Settles O23: `A` is written back as it was. -/
theorem boothNoOperationSteps : Obligations.BoothNoOperationSteps := by
  intro s a q p hst ha hq hp
  refine ⟨?pair00, ?pair11⟩
  case pair00 =>
    rintro hq0 rfl
    rw [exec, execMuNop00, muNoOperation_eq hst ha hq hp (by rw [controlPair_eq_ofBool, hq0]; rfl), ← ha]
    rfl
  case pair11 =>
    rintro hq0 rfl
    rw [exec, execMuNop11, muNoOperation_eq hst ha hq hp (by rw [controlPair_eq_ofBool, hq0]; rfl), ← ha]
    rfl

/-- Settles O24: the shifted `A` is the library's shift with the sign replicated. -/
theorem boothShiftStep : Obligations.BoothShiftStep := by
  intro s a q p k hst ha hq hp hk
  have hsign : a.sshiftRight 1 = a.extractLsb' 3 1 ++ a.extractLsb' 1 3 := sshiftRight_one_eq_append (w := 3) a
  rw [exec, execMuAsr_eq hst ha hq hp hk, asr_fields, ← hsign]
  rfl

/-- Settles O25: the signed readings are the library's. -/
theorem boothFinalStep : Obligations.BoothFinalStep := by
  intro s a q m y p hst ha hq hp hm hy
  rw [exec, execMuFinal_eq hst ha hq hp hm hy, sval_eq_toInt, sval_eq_toInt, sval_eq_toInt]
  rfl

/-- Settles O32: a state-selected step checks its state first, then the operation and adjust steps check the select. -/
theorem microStepOutsideItsStateIsRefused : Obligations.MicroStepOutsideItsStateIsRefused := by
  intro s
  refine ⟨fun h => ?op, fun h => inMuState_of_ne h, fun h => inMuState_of_ne h, fun h => inDuState_of_ne h, fun h => ?adjust,
    fun h => inDuState_of_ne h, fun h => inDuState_of_ne h, fun h => inDuState_of_ne h, ?pair, ?sign⟩
  case op => exact ⟨inMuState_of_ne h, inMuState_of_ne h, inMuState_of_ne h, inMuState_of_ne h⟩
  case adjust => exact ⟨inDuState_of_ne h, inDuState_of_ne h⟩
  case pair =>
    intro q p hst hq hp i hi hne
    have hrefused {c : Pair} {body : Nibble → Bit → Out} (hc : encode i = .muPair c) :
        inMuPair i c s body = .refused (.stepNotEnabled i) := by
      rw [inMuPair_eq hst hq hp, if_neg]
      rintro rfl
      exact hne hc
    simp only [List.mem_cons, List.not_mem_nil, or_false] at hi
    rcases hi with rfl | rfl | rfl | rfl <;> exact hrefused rfl
  case sign =>
    intro a hst ha i hi hne
    have hrefused {sign : Bit} {body : Acc → Out} (hsign : encode i = .duAdjust sign) :
        inDuAdjust i sign s body = .refused (.stepNotEnabled i) := by
      rw [inDuAdjust_eq hst ha, if_neg]
      rintro rfl
      exact hne hsign
    simp only [List.mem_cons, List.not_mem_nil, or_false] at hi
    rcases hi with rfl | rfl <;> exact hrefused rfl

/-! ## What MU's steps leave alone -/

/-- An instruction of MU does not write DU, and answers the same whatever DU holds (R89). -/
theorem exec_mu_ignores_du {i : Instr} {s t : State} (hunit : i.unit = .mu) (h : exec i s = .next t) :
    t.du = s.du ∧ ∀ d : Du, exec i { s with du := d } = .next { t with du := d } := by
  cases i with
  | div x d | divZero x => cases hunit
  | duShl | duSub | duAdd | duSetq0 | duRestore | duFinal => cases hunit
  | mul x y =>
    rcases startMu_next h with ⟨hb, rfl⟩ | ⟨hb, rfl⟩
    · exact ⟨rfl, fun _ => if_pos hb⟩
    · exact ⟨rfl, fun _ => if_neg (by simp [hb])⟩
  | muSub =>
    obtain ⟨hst, a, q, p, m, ha, hq, hp, hm, hc, rfl⟩ := execMuSub_next h
    exact ⟨rfl, fun _ => execMuSub_eq hst ha hq hp hm hc⟩
  | muAdd =>
    obtain ⟨hst, a, q, p, m, ha, hq, hp, hm, hc, rfl⟩ := execMuAdd_next h
    exact ⟨rfl, fun _ => execMuAdd_eq hst ha hq hp hm hc⟩
  | muNop00 | muNop11 =>
    obtain ⟨hst, a, q, p, ha, hq, hp, hc, rfl⟩ := muNoOperation_next h
    exact ⟨rfl, fun _ => muNoOperation_eq hst ha hq hp hc⟩
  | muAsr =>
    obtain ⟨hst, a, q, p, k, ha, hq, hp, hk, rfl⟩ := execMuAsr_next h
    exact ⟨rfl, fun _ => execMuAsr_eq hst ha hq hp hk⟩
  | muFinal =>
    obtain ⟨hst, a, q, p, m, y, ha, hq, hp, hm, hy, rfl⟩ := execMuFinal_next h
    exact ⟨rfl, fun _ => execMuFinal_eq hst ha hq hp hm hy⟩

/-- Settles O34: what each micro-step writes is what the law of its meaning says. -/
theorem boothStepFrame : Obligations.BoothStepFrame := by
  refine ⟨fun i s t hunit hmicro h => ?writes, fun i s t => exec_mu_ignores_du⟩
  case writes =>
    cases i with
    | mul x y | div x d | divZero x => cases hmicro
    | duShl | duSub | duAdd | duSetq0 | duRestore | duFinal => cases hunit
    | muSub =>
      obtain ⟨-, a, q, p, m, -, -, -, -, -, rfl⟩ := execMuSub_next h
      exact ⟨rfl, rfl, rfl, fun _ => ⟨rfl, rfl, rfl⟩, by simp, rfl, _, rfl, rfl⟩
    | muAdd =>
      obtain ⟨-, a, q, p, m, -, -, -, -, -, rfl⟩ := execMuAdd_next h
      exact ⟨rfl, rfl, rfl, fun _ => ⟨rfl, rfl, rfl⟩, by simp, rfl, _, rfl, rfl⟩
    | muNop00 | muNop11 =>
      obtain ⟨-, a, q, p, ha, -, -, -, rfl⟩ := muNoOperation_next h
      exact ⟨rfl, rfl, rfl, fun _ => ⟨rfl, rfl, rfl⟩, fun _ => ha.symm, rfl, _, rfl, rfl⟩
    | muAsr =>
      obtain ⟨-, a, q, p, k, -, -, -, -, rfl⟩ := execMuAsr_next h
      exact ⟨rfl, rfl, rfl, fun hne => absurd rfl hne, by simp, rfl, _, rfl, rfl⟩
    | muFinal =>
      obtain ⟨-, a, q, p, m, y, -, -, -, -, -, rfl⟩ := execMuFinal_next h
      exact ⟨rfl, rfl, rfl, fun _ => ⟨rfl, rfl, rfl⟩, fun _ => rfl, rfl, _, rfl, rfl⟩

end Sys2Proof.Machine

namespace Sys2Proof.Machine

/-! ## MU's moments, with the record kind of R90 -/

/-- The kind of the operation record that a control pair calls for (R84, R85, R86). -/
def pairKind (c : Pair) : MuKind := if c = 0b10#2 then .sub else if c = 0b01#2 then .add else .nop

/-- What the operation step of a control pair makes of `A`, with the multiplicand `x` (R84, R85, R86). -/
def pairOperation (c : Pair) (a x : Nibble) : Nibble :=
  if c = 0b10#2 then sub a x else if c = 0b01#2 then add a x else a

section Moves
variable {m : Mu}

/-- The values that the registers of a live MU hold. -/
theorem Mu.Live.values (h : m.Live) : ∃ a q p x y k, m.a = some a ∧ m.q = some q ∧ m.qm1 = some p ∧ m.m = some x ∧
    m.y = some y ∧ m.k = some k := by
  simp only [Mu.Live, Option.isSome_iff_exists] at h
  obtain ⟨⟨a, ha⟩, ⟨q, hq⟩, ⟨p, hp⟩, ⟨x, hx⟩, ⟨y, hy⟩, ⟨k, hk⟩⟩ := h
  exact ⟨a, q, p, x, y, k, ha, hq, hp, hx, hy, hk⟩

/-- In `OP` MU makes the operation of its control pair and goes on to `SHIFT` (R90). -/
theorem Mu.movesTo_pairOperation {a q x : Nibble} {p : Bit} (hst : m.st = .op) (ha : m.a = some a) (hq : m.q = some q)
    (hp : m.qm1 = some p) (hx : m.m = some x) :
    m.MovesTo { m.emit (pairKind (controlPair q p)) (pairOperation (controlPair q p) a x) q p none with
      a := some (pairOperation (controlPair q p) a x), st := .shift } := by
  rintro s rfl
  rw [runAgent_mu_operation hst hq hp, ha, hx, pairKind, pairOperation]
  split_ifs <;> rfl

/-- The state after the shift step: another iteration or the final record (R87, R90). -/
theorem ite_counter_succ_eq_iterations {k : Counter} (h : k.toNat ≤ 3) :
    (if k + 1#3 = Config.iterations then MuSt.final else .op) = if k.toNat + 1 < 4 then .op else .final := by
  by_cases hlast : k.toNat = 3
  · rw [if_pos ((counter_succ_eq_iterations_iff h).mpr hlast), if_neg (by omega)]
  · rw [if_neg (mt (counter_succ_eq_iterations_iff h).mp hlast), if_pos (by omega)]

end Moves

/-- Settles O38: the command rows are the start step; a moment of MU moves it as its state says. -/
theorem boothTransitionTable : Obligations.BoothTransitionTable := by
  refine ⟨fun s x y hst => ?start, fun s x y hst => ?refused, fun s ts hinv hs => ?moment⟩
  case start => exact ⟨_, (mulStartsABoothRun x y s).1 hst, rfl, rfl⟩
  case refused => exact (mulStartsABoothRun x y s).2 (s.mu.busy_iff.mpr hst)
  case moment =>
    obtain ⟨⟨⟨-, hlive⟩, -, -, hshift, -, -⟩, -⟩ := hinv
    rw [step_cons hs, runTurn_plain]
    cases hst : s.mu.st with
    | idle | done => exact Mu.movesTo_self (s.mu.busy_eq_false_iff.mpr (by simp [hst])) _ rfl
    | op =>
      obtain ⟨a, q, p, x, y, k, ha, hq, hp, hx, -, -⟩ := (hlive (by simp [hst])).values
      rw [hq, hp]
      exact ⟨_, _, Mu.movesTo_pairOperation hst ha hq hp hx _ rfl, rfl, rfl, rfl⟩
    | shift =>
      obtain ⟨a, q, p, x, y, k, ha, hq, hp, -, -, hk⟩ := (hlive (by simp [hst])).values
      obtain ⟨hk3, -⟩ := hshift hst
      rw [Mu.iteration, hk, Option.getD_some] at hk3 ⊢
      exact ⟨_, _, Mu.movesTo_of_shift hst ha hq hp hk _ rfl, ite_counter_succ_eq_iterations hk3, rfl, rfl⟩
    | final =>
      obtain ⟨a, q, p, x, y, k, ha, hq, hp, hx, hy, -⟩ := (hlive (by simp [hst])).values
      exact ⟨_, _, Mu.movesTo_of_final hst ha hq hp hx hy _ rfl, rfl, rfl, rfl⟩

/-! ## The end of a run -/

/-- What each application of `f` keeps holds after any number of them, and what each brings down by 1 is 0 after enough. -/
theorem iterate_reaches_zero {α : Type} {f : α → α} {P : α → Prop} {μ : α → Nat}
    (hf : ∀ a, P a → P (f a) ∧ μ (f a) ≤ μ a - 1) {n : Nat} {a : α} (ha : P a) (hn : μ a ≤ n) :
    P (f^[n] a) ∧ μ (f^[n] a) = 0 := by
  induction n generalizing a with
  | zero => exact ⟨ha, by simpa using hn⟩
  | succ n ih =>
    obtain ⟨hP, hμ⟩ := hf a ha
    exact ih hP (by omega)

/-- A sound MU that has been started stays so at its moments. -/
theorem Mu.Sound.advance_started {m : Mu} (h : m.Sound) (hst : m.st ≠ .idle) : m.advance.st ≠ .idle := by
  cases hb : m.busy with
  | false => rwa [(Mu.movesTo_self hb).advance_eq]
  | true =>
    obtain ⟨a, q, p, x, y, k, ha, hq, hp, hx, hy, hk⟩ := (h hb).1.values
    rcases m.busy_iff.mp hb with hst | hst | hst
    · simp [(Mu.movesTo_pairOperation hst ha hq hp hx).advance_eq]
    · rw [(Mu.movesTo_of_shift hst ha hq hp hk).advance_eq]
      dsimp only
      split <;> simp
    · simp [(Mu.movesTo_of_final hst ha hq hp hx hy).advance_eq]

/-- A sound DU in a run that has not ended in `ERROR` stays so at its moments. -/
theorem Du.Sound.advance_started {d : Du} (h : d.Sound) (hst : d.st ≠ .idle ∧ d.st ≠ .error) :
    d.advance.st ≠ .idle ∧ d.advance.st ≠ .error := by
  cases hb : d.busy with
  | false => rwa [(Du.movesTo_self hb).advance_eq]
  | true =>
    have hlive := (h hb).1
    simp only [Du.Live, Option.isSome_iff_exists] at hlive
    obtain ⟨⟨a, ha⟩, ⟨q, hq⟩, ⟨m, hm⟩, ⟨x, hx⟩, ⟨k, hk⟩⟩ := hlive
    rcases d.busy_iff.mp hb with hst | hst | hst | hst | hst
    · simp [(Du.movesTo_of_shift hst ha hq).advance_eq]
    · obtain ⟨kind, a', hmove⟩ := Du.movesTo_of_adjust hst ha hq hm
      simp [hmove.advance_eq]
    · rw [(Du.movesTo_of_setq0 hst ha hq hk).advance_eq, afterSetQ0]
      dsimp only
      split_ifs <;> simp
    · simp [(Du.movesTo_of_restore hst ha hq hm).advance_eq]
    · simp [(Du.movesTo_of_final hst ha hq hm hx).advance_eq]

/-- A started MU whose run needs no more moments is in `DONE`. -/
theorem Mu.done_of_remaining_eq_zero {m : Mu} (hst : m.st ≠ .idle) (h : m.remaining = 0) : m.st = .done := by
  have hb : ¬ m.busy = true := by rw [m.busy_iff_remaining_pos, h]; simp
  exact (m.busy_eq_false_iff.mp (Bool.eq_false_iff.mpr hb)).resolve_left hst

/-- A DU in a run that has not ended in `ERROR` and needs no more moments is in `DONE`. -/
theorem Du.done_of_remaining_eq_zero {d : Du} (hst : d.st ≠ .idle ∧ d.st ≠ .error) (h : d.remaining = 0) : d.st = .done := by
  have hb : ¬ d.busy = true := by rw [d.busy_iff_remaining_pos, h]; simp
  have hquiet := d.busy_eq_false_iff.mp (Bool.eq_false_iff.mpr hb)
  exact (hquiet.resolve_left hst.1).resolve_right hst.2

/-- Settles O55: a started unit stays started, and each of its moments brings its run nearer to its end. -/
theorem everyRunEndsWithinFifteenSteps : Obligations.EveryRunEndsWithinFifteenSteps := by
  intro s u l ts hinv hb hs hl hturns
  obtain ⟨hmuWf, hduWf⟩ := hinv
  refine ⟨_, run_unitTurns hl hmuWf.sound hduWf.sound hs, rfl, ?mu, ?du⟩
  case mu =>
    rintro rfl
    have hkeeps : ∀ m : Mu, (m.Sound ∧ m.st ≠ .idle) →
        (m.advance.Sound ∧ m.advance.st ≠ .idle) ∧ m.advance.remaining ≤ m.remaining - 1 := fun m ⟨hsound, hst⟩ =>
      ⟨⟨hsound.advance.2.1, hsound.advance_started hst⟩, hsound.advance.2.2⟩
    obtain ⟨hst, -⟩ := s.mu.busy_iff_not_quiescent.mp hb
    have hle := s.mu.remaining_le.trans (Nat.le_trans (by decide) hturns)
    obtain ⟨⟨-, hst⟩, hzero⟩ := iterate_reaches_zero hkeeps ⟨hmuWf.sound, hst⟩ hle
    exact Mu.done_of_remaining_eq_zero hst hzero
  case du =>
    rintro rfl
    have hkeeps : ∀ d : Du, (d.Sound ∧ d.st ≠ .idle ∧ d.st ≠ .error) →
        (d.advance.Sound ∧ d.advance.st ≠ .idle ∧ d.advance.st ≠ .error) ∧ d.advance.remaining ≤ d.remaining - 1 :=
      fun d ⟨hsound, hst⟩ => ⟨⟨hsound.advance.2.1, hsound.advance_started hst⟩, hsound.advance.2.2⟩
    obtain ⟨hidle, -, herror⟩ := s.du.busy_iff_not_quiescent.mp hb
    have hle := s.du.remaining_le.trans (Nat.le_trans (by decide) hturns)
    obtain ⟨⟨-, hst⟩, hzero⟩ := iterate_reaches_zero hkeeps ⟨hduWf.sound, hidle, herror⟩ hle
    exact Du.done_of_remaining_eq_zero hst hzero

end Sys2Proof.Machine

namespace Sys2Proof.Machine

/-! ## The Booth recoding

The accumulator, `Q` and `Qm1` are one 9-bit word `A ‖ Q ‖ Qm1` (R74). After `i` iterations its signed value is the product of the
multiplicand with the low `i` bits of the multiplier, read as a signed number, above the bits of the multiplier still to come
(`boothExpected`). An operation adds the product with the next recoded digit, a shift halves the value. No operation leaves the range
of the word, the multiplicand 1000 being read as 8: its negation is -8, which fits, and 8 itself is added only to a negative
`A` (`boothFactor`, R94). -/

/-- The number that a run multiplies by: modulo 16 the multiplicand 1000 is 8 as well as -8, and its operations stay in range as
those of 8 (R73, R94). -/
def boothFactor (x : Nibble) : Int := if x = 0b1000#4 then 8 else x.toInt

/-- The digit that a control pair stands for: -1 subtracts, 1 adds, 0 leaves (R58). -/
def pairDigit (c : Pair) : Int := if c = 0b10#2 then -1 else if c = 0b01#2 then 1 else 0

/-- The control pair of iteration `i` for the multiplier `y`: `Y[i] ‖ Y[i-1]`, `Y[-1] = 0` (R93). -/
def recodedPair (y : Nibble) (i : Nat) : Pair :=
  BitVec.ofBool (y.getLsbD i) ++ BitVec.ofBool (decide (0 < i) && y.getLsbD (i - 1))

/-- The signed value of `A ‖ Q ‖ Qm1`. -/
def boothValue (a q : Nibble) (p : Bit) : Int := (boothWord a q p).toInt

/-- The value of `A ‖ Q ‖ Qm1` after `i` shifts and `j` operations of the run that multiplies `x` by `y`. -/
def boothExpected (x y : Nibble) (i j : Nat) : Int :=
  boothFactor x * (y.setWidth j).toInt * 2 ^ (5 - i) + ((2 * y.toNat / 2 ^ i : Nat) : Int)

section Recoding
variable {a q x y : Nibble} {p : Bit} {i : Nat}

theorem boothFactor_range (x : Nibble) : -7 ≤ boothFactor x ∧ boothFactor x ≤ 8 := by
  revert x; decide

/-- The multiplicand is the factor modulo 16. -/
theorem ofInt_boothFactor (x : Nibble) : BitVec.ofInt 4 (boothFactor x) = x := by
  unfold boothFactor
  split
  · next h => rw [h]; rfl
  · exact BitVec.ofInt_toInt

/-- The operation of a control pair adds its digit times the factor, modulo 16. -/
theorem pairOperation_eq_add (c : Pair) (a x : Nibble) :
    pairOperation c a x = a + BitVec.ofInt 4 (pairDigit c * boothFactor x) := by
  unfold pairOperation pairDigit
  split_ifs
  · rw [neg_one_mul, BitVec.ofInt_neg, ofInt_boothFactor, sub_eq, BitVec.sub_eq_add_neg]
  · rw [one_mul, ofInt_boothFactor, add_eq]
  · simp

/-- The recoded pair selects the recoded operation (R93). -/
theorem pairKind_recodedPair (y : Nibble) (i : Nat) : pairKind (recodedPair y i) = recodedKind y i := by
  unfold recodedPair recodedKind
  cases y.getLsbD i <;> cases decide (0 < i) && y.getLsbD (i - 1) <;> rfl

/-- One more bit of the multiplier adds its digit to the signed value of the lower ones. -/
theorem toInt_setWidth_succ (y : Nibble) (hi : i ≤ 3) :
    (y.setWidth (i + 1)).toInt = (y.setWidth i).toInt + pairDigit (recodedPair y i) * 2 ^ i := by
  interval_cases i <;> revert y <;> decide

/-! ### The word `A ‖ Q ‖ Qm1` -/

/-- `A` is signed, `Q` and `Qm1` below it are not. -/
theorem boothValue_eq (a q : Nibble) (p : Bit) : boothValue a q p = 32 * a.toInt + 2 * q.toNat + p.toNat := by
  rw [boothValue, boothWord, BitVec.toInt_append, BitVec.toInt_append]
  simp only [Nat.reduceAdd, Nat.reduceBEq, Bool.false_eq_true, if_false]
  ring

/-- Without `Qm1` the word is the product. -/
theorem boothValue_eq_product (a q : Nibble) (p : Bit) : boothValue a q p = 2 * (product a q).toInt + p.toNat :=
  BitVec.toInt_append

/-- An operation that stays in range adds its digit times the factor to `A`. -/
theorem boothValue_pairOperation {c : Pair} (hlow : -256 ≤ boothValue a q p + 32 * (pairDigit c * boothFactor x))
    (hhigh : boothValue a q p + 32 * (pairDigit c * boothFactor x) < 256) :
    boothValue (pairOperation c a x) q p = boothValue a q p + 32 * (pairDigit c * boothFactor x) := by
  have hsum : pairOperation c a x = BitVec.ofInt 4 (a.toInt + pairDigit c * boothFactor x) := by
    rw [pairOperation_eq_add, BitVec.ofInt_add, BitVec.ofInt_toInt]
  rw [boothValue_eq] at hlow hhigh
  have hq := q.isLt
  have hp := p.isLt
  rw [boothValue_eq, boothValue_eq, hsum, BitVec.toInt_ofInt_eq_self (by decide) (by omega) (by omega)]
  ring

/-- A 9-bit word is the Booth word of its fields. -/
theorem boothWord_fields (c : BitVec 9) : boothWord (c.extractLsb' 5 4) (c.extractLsb' 1 4) (c.extractLsb' 0 1) = c := by
  rw [boothWord, BitVec.extractLsb'_append_extractLsb'_eq_extractLsb' (start₁ := 1) (len₁ := 4) rfl,
    BitVec.extractLsb'_append_extractLsb'_eq_extractLsb' (start₁ := 0) (len₁ := 1) rfl, BitVec.extractLsb'_eq_self]

/-- The shift halves the value (R74). -/
theorem boothValue_asr (a q : Nibble) (p : Bit) :
    boothValue (asr a q p).1 (asr a q p).2.1 (asr a q p).2.2 = boothValue a q p / 2 := by
  have hword : boothWord (asr a q p).1 (asr a q p).2.1 (asr a q p).2.2 = (boothWord a q p).sshiftRight 1 :=
    boothWord_fields _
  rw [boothValue, hword, BitVec.toInt_sshiftRight, Int.shiftRight_eq_div_pow]
  rfl

/-! ### The value through an iteration -/

/-- A bit is the parity of what is left of the number above it. -/
theorem getLsbD_eq_decide {w : Nat} (v : BitVec w) (j : Nat) : v.getLsbD j = decide (v.toNat / 2 ^ j % 2 = 1) := by
  rw [← BitVec.testBit_toNat, Nat.testBit_eq_decide_div_mod_eq]

/-- The next two bits of the multiplier stand in the control pair. -/
theorem controlPair_of_expected (hi : i ≤ 3) (h : boothValue a q p = boothExpected x y i i) :
    controlPair q p = recodedPair y i := by
  rw [boothValue_eq, boothExpected] at h
  generalize boothFactor x * (y.setWidth i).toInt = z at h
  have hq : q.getLsbD 0 = y.getLsbD i := by
    rw [getLsbD_eq_decide, getLsbD_eq_decide, decide_eq_decide]
    interval_cases i <;> omega
  have hp : p.getLsbD 0 = (decide (0 < i) && y.getLsbD (i - 1)) := by
    rw [getLsbD_eq_decide, getLsbD_eq_decide, ← Bool.decide_and, decide_eq_decide]
    interval_cases i <;> omega
  rw [controlPair_eq_ofBool, hq, hp, recodedPair]

/-- The operation of an iteration adds its digit. -/
theorem boothExpected_operation (x y : Nibble) (hi : i ≤ 3) :
    boothExpected x y i (i + 1) = boothExpected x y i i + 32 * (pairDigit (recodedPair y i) * boothFactor x) := by
  have hscale : (2 : Int) ^ i * 2 ^ (5 - i) = 32 := by rw [← pow_add, Nat.add_sub_cancel' (by omega)]; rfl
  rw [boothExpected, boothExpected, toInt_setWidth_succ y hi, ← hscale]
  ring

/-- The product with a factor from -7 to 8 stays in the signed range eight times as wide; with -8 it would not: `-8 * -n = 8 * n`. -/
theorem factor_mul_range {f v n : Int} (hf : -7 ≤ f ∧ f ≤ 8) (hv : -n ≤ v ∧ v < n) : -(8 * n) ≤ f * v ∧ f * v < 8 * n := by
  obtain ⟨hf7, hf8⟩ := hf
  obtain ⟨hlow, hhigh⟩ := hv
  rcases le_or_gt 0 v with hpos | hneg
  · constructor <;> nlinarith
  · constructor <;> nlinarith

/-- The operation of an iteration stays in the range of the word. -/
theorem boothExpected_range (x y : Nibble) (hi : i ≤ 3) :
    -256 ≤ boothExpected x y i (i + 1) ∧ boothExpected x y i (i + 1) < 256 := by
  have hlow : -2 ^ i ≤ (y.setWidth (i + 1)).toInt := BitVec.le_toInt _
  have hhigh : (y.setWidth (i + 1)).toInt < 2 ^ i := BitVec.toInt_lt
  obtain ⟨hlow, hhigh⟩ := factor_mul_range (boothFactor_range x) ⟨hlow, hhigh⟩
  have hy := y.isLt
  rw [boothExpected]
  generalize boothFactor x * (y.setWidth (i + 1)).toInt = z at hlow hhigh ⊢
  interval_cases i <;> omega

/-- The operation of an iteration makes of the value before it the value after it. -/
theorem boothValue_operation (hi : i ≤ 3) (h : boothValue a q p = boothExpected x y i i) :
    boothValue (pairOperation (recodedPair y i) a x) q p = boothExpected x y i (i + 1) := by
  obtain ⟨hlow, hhigh⟩ := boothExpected_range x y hi
  rw [boothExpected_operation x y hi, ← h] at hlow hhigh ⊢
  exact boothValue_pairOperation hlow hhigh

/-- The shift of an iteration makes room for the next digit. -/
theorem boothExpected_shift (x y : Nibble) (hi : i ≤ 3) :
    boothExpected x y i (i + 1) / 2 = boothExpected x y (i + 1) (i + 1) := by
  rw [boothExpected, boothExpected]
  generalize boothFactor x * (y.setWidth (i + 1)).toInt = z
  interval_cases i <;> omega

end Recoding

end Sys2Proof.Machine

namespace Sys2Proof.Machine

/-! ## A run of MU -/

/-- The record kinds of a run with the multiplier `y` (R92, R93). -/
def boothKinds (y : Nibble) : List MuKind :=
  [.init, recodedKind y 0, .asr, recodedKind y 1, .asr, recodedKind y 2, .asr, recodedKind y 3, .asr, .final]

/-- How many operations of its run MU has made: in `SHIFT` the one of the current iteration too (R90). -/
def Mu.operations (m : Mu) : Nat := if m.st = .shift then m.iteration + 1 else m.iteration

/-- MU is somewhere in its run that multiplies `x` by `y`, or at the end of it. -/
structure Mu.Runs (x y : Nibble) (m : Mu) : Prop where
  wf : m.Wf
  started : m.st ≠ .idle
  multiplicand : m.m = some x
  multiplier : m.y = some y
  kinds : m.trace.map MuRecord.kind = (boothKinds y).take m.n
  value : boothValue (m.a.getD 0#4) (m.q.getD 0#4) (m.qm1.getD 0#1) = boothExpected x y m.iteration m.operations

section Runs
variable {m : Mu} {x y : Nibble}

/-- A moment of MU keeps the invariant. -/
theorem Mu.Wf.advance (h : m.Wf) : m.advance.Wf :=
  (runUnit_changes (h.sound.advance.1 { State.reset with mu := m } rfl)).1.wf h

/-- The start step begins a run (R82). -/
theorem Mu.start_runs (x y : Nibble) : (Mu.start x y).Runs x y where
  wf := Mu.start_wf x y
  started := by simp [Mu.start]
  multiplicand := rfl
  multiplier := rfl
  kinds := rfl
  value := by
    rw [boothValue_eq]
    simp [Mu.start, Mu.operations, Mu.iteration, boothExpected]

/-- A record of the next kind continues the kinds of the run. -/
theorem Mu.Runs.emit_kinds (h : m.Runs x y) {kind : MuKind} (hkind : (boothKinds y)[m.n]? = some kind)
    (a q : Nibble) (p : Bit) (fin : Option MuFinal) :
    (m.emit kind a q p fin).trace.map MuRecord.kind = (boothKinds y).take (m.emit kind a q p fin).n := by
  simp [h.kinds, List.take_add_one, hkind]

/-- The registers of a run hold values, whose value is what the run has made. -/
theorem Mu.Runs.registers (h : m.Runs x y) : ∃ a q p k, m.a = some a ∧ m.q = some q ∧ m.qm1 = some p ∧ m.k = some k ∧
    boothValue a q p = boothExpected x y m.iteration m.operations := by
  obtain ⟨⟨-, hlive⟩, -, -⟩ := h.wf
  obtain ⟨a, q, p, x', y', k, ha, hq, hp, -, -, hk⟩ := (hlive h.started).values
  have hvalue := h.value
  rw [ha, hq, hp] at hvalue
  exact ⟨a, q, p, k, ha, hq, hp, hk, hvalue⟩

/-- The operation step makes the next digit of the recoding. -/
theorem Mu.Runs.advance_of_op (h : m.Runs x y) (hst : m.st = .op) : m.advance.Runs x y := by
  obtain ⟨-, -, hop, -, -, -⟩ := h.wf
  obtain ⟨hi, hn⟩ := hop hst
  obtain ⟨a, q, p, -, ha, hq, hp, -, hvalue⟩ := h.registers
  rw [Mu.operations, if_neg (by simp [hst])] at hvalue
  have hpair := controlPair_of_expected hi hvalue
  have hmove := (Mu.movesTo_pairOperation hst ha hq hp h.multiplicand).advance_eq
  have hwf := h.wf.advance
  rw [hpair] at hmove
  rw [hmove] at hwf ⊢
  refine ⟨hwf, by simp, h.multiplicand, h.multiplier, h.emit_kinds ?kind _ _ _ _, ?value⟩
  case kind =>
    rw [pairKind_recodedPair, hn]
    interval_cases m.iteration <;> rfl
  case value =>
    simpa [hq, hp, Mu.operations, Mu.iteration] using boothValue_operation hi hvalue

/-- The shift step makes room for the next digit. -/
theorem Mu.Runs.advance_of_shift (h : m.Runs x y) (hst : m.st = .shift) : m.advance.Runs x y := by
  obtain ⟨-, -, -, hshift, -, -⟩ := h.wf
  obtain ⟨hi, hn⟩ := hshift hst
  obtain ⟨a, q, p, k, ha, hq, hp, hk, hvalue⟩ := h.registers
  rw [Mu.operations, if_pos hst] at hvalue
  rw [Mu.iteration, hk, Option.getD_some] at hi hn hvalue
  have hmove := (Mu.movesTo_of_shift hst ha hq hp hk).advance_eq
  have hwf := h.wf.advance
  rw [ite_counter_succ_eq_iterations hi] at hmove
  rw [hmove] at hwf ⊢
  have hnext : (if k.toNat + 1 < 4 then MuSt.op else .final) ≠ .idle ∧
      (if k.toNat + 1 < 4 then MuSt.op else .final) ≠ .shift := by split <;> simp
  refine ⟨hwf, hnext.1, h.multiplicand, h.multiplier, h.emit_kinds ?kind _ _ _ _, ?value⟩
  case kind =>
    rw [hn]
    interval_cases k.toNat <;> rfl
  case value =>
    rw [Mu.operations, if_neg hnext.2]
    simp [Mu.iteration, counter_succ_toNat hi, boothValue_asr, hvalue, boothExpected_shift x y hi]

/-- The final step leaves the record and no other change. -/
theorem Mu.Runs.advance_of_final (h : m.Runs x y) (hst : m.st = .final) : m.advance.Runs x y := by
  obtain ⟨-, -, -, -, hfinal, -⟩ := h.wf
  obtain ⟨-, hn⟩ := hfinal hst
  obtain ⟨a, q, p, -, ha, hq, hp, -, -⟩ := h.registers
  have hvalue := h.value
  rw [Mu.operations, if_neg (by simp [hst])] at hvalue
  have hwf := h.wf.advance
  rw [(Mu.movesTo_of_final hst ha hq hp h.multiplicand h.multiplier).advance_eq] at hwf ⊢
  exact ⟨hwf, by simp, h.multiplicand, h.multiplier, h.emit_kinds (by rw [hn]; rfl) _ _ _ _, hvalue⟩

/-- Every moment of MU goes on with its run. -/
theorem Mu.Runs.advance (h : m.Runs x y) : m.advance.Runs x y := by
  cases hst : m.st with
  | idle => exact absurd hst h.started
  | op => exact h.advance_of_op hst
  | shift => exact h.advance_of_shift hst
  | final => exact h.advance_of_final hst
  | done => rwa [(Mu.movesTo_self (m.busy_eq_false_iff.mpr (.inr hst))).advance_eq]

/-- At the end of the run the product is that of the factor and the multiplier. -/
theorem Mu.Runs.product_toInt (h : m.Runs x y) (hst : m.st = .done) :
    (product (m.a.getD 0#4) (m.q.getD 0#4)).toInt = boothFactor x * y.toInt := by
  obtain ⟨-, -, -, -, -, hdone⟩ := h.wf
  have hvalue := h.value
  rw [Mu.operations, if_neg (by simp [hst]), (hdone hst).1, boothValue_eq_product, boothExpected, BitVec.setWidth_eq] at hvalue
  have hp := (m.qm1.getD 0#1).isLt
  have hy := y.isLt
  omega

/-- The result of a finished run (R135, R148). -/
theorem Mu.Runs.result (h : m.Runs x y) (hst : m.st = .done) : m.result = some (.product
    { p := product (m.a.getD 0#4) (m.q.getD 0#4), pDec := sval (product (m.a.getD 0#4) (m.q.getD 0#4))
      mDec := sval x, yDec := sval y }) := by
  obtain ⟨-, ⟨-, -, hlast, -⟩, -⟩ := h.wf
  rw [Mu.result, if_neg (by simp [m.busy_eq_false_iff.mpr (.inr hst)]), hlast hst]
  simp [Mu.finalRecord, h.multiplicand, h.multiplier]

end Runs

/-- Issuing `MUL` to an MU that is not busy starts the run; the moments of the units then advance it as often as MU has moments. -/
theorem run_mul {s : State} {x y : Nibble} {l ts : List Turn} (hinv : s.Inv) (hb : s.mu.busy = false)
    (hissue : s.IssuesThen (0#1 ++ x ++ y) l ts) :
    ∃ t, run (l.length + 1) s = .next t ∧ t.sched = ts ∧ t.mu = Mu.advance^[turnsOf .mu l] (Mu.start x y) := by
  obtain ⟨hhost, hs, hl⟩ := hissue
  obtain ⟨rest, hh⟩ := List.head?_eq_some_iff.mp hhost
  have hstep : step s = .next { s with host := rest, sched := l ++ ts, mu := Mu.start x y } := by
    have hdecode : decode (.cmd9 (0#1 ++ x ++ y)) = .ok (.mul x y) := decode_encode (i := .mul x y) rfl
    rw [step_hostMove hs hh, hostMove, runCode_ok hdecode, exec_mul, startMu_eq, if_neg (by simp [hb])]
  have hunits := run_unitTurns (s := { s with host := rest, sched := l ++ ts, mu := Mu.start x y }) hl
    (Mu.start_wf x y).sound hinv.2.sound rfl
  exact ⟨_, (run_succ_of_next hstep).trans hunits, rfl, rfl⟩

/-- After nine moments of MU its run is at its end. -/
theorem run_mul_ends {s : State} {x y : Nibble} {l ts : List Turn} (hinv : s.Inv) (hb : s.mu.busy = false)
    (hissue : s.IssuesThen (0#1 ++ x ++ y) l ts) (hturns : 9 ≤ turnsOf .mu l) :
    ∃ t, run (l.length + 1) s = .next t ∧ t.sched = ts ∧ t.mu.Runs x y ∧ t.mu.st = .done := by
  obtain ⟨t, hrun, hsched, hmu⟩ := run_mul hinv hb hissue
  have hkeeps : ∀ m : Mu, m.Runs x y → m.advance.Runs x y ∧ m.advance.remaining ≤ m.remaining - 1 := fun m h =>
    ⟨h.advance, h.wf.sound.advance.2.2⟩
  have hle := (Mu.start x y).remaining_le.trans hturns
  obtain ⟨hruns, hzero⟩ := iterate_reaches_zero hkeeps (Mu.start_runs x y) hle
  rw [← hmu] at hruns hzero
  exact ⟨t, hrun, hsched, hruns, Mu.done_of_remaining_eq_zero hruns.started hzero⟩

/-- The unsigned value is the signed one modulo `2^w`. -/
theorem toNat_eq_toInt_emod {w : Nat} (v : BitVec w) : (v.toNat : Int) = v.toInt % (2 ^ w : Nat) := by
  rw [BitVec.toInt_eq_toNat_bmod, Int.bmod_emod, Int.emod_eq_of_lt (by omega) (by exact_mod_cast v.isLt)]

/-- Settles O49: the product is that of the factor and the multiplier; the factor is the multiplicand, or 8 where that is -8. -/
theorem boothProductLaw : Obligations.BoothProductLaw := by
  intro s x y l ts hinv hb hissue hturns
  obtain ⟨t, hrun, hsched, hruns, hst⟩ := run_mul_ends hinv hb hissue hturns
  obtain ⟨a, q, -, -, ha, hq, -, -, -⟩ := hruns.registers
  have hresult := hruns.result hst
  have hproduct := hruns.product_toInt hst
  rw [ha, hq, Option.getD_some, Option.getD_some] at hresult hproduct
  have hnat := toNat_eq_toInt_emod (product a q)
  rw [hproduct] at hnat
  refine ⟨t, a, q, _, hrun, hsched, hst, ha, hq, hresult, rfl, sval_eq_toInt _, sval_eq_toInt _, sval_eq_toInt _,
    fun hx => ?other, fun hx => ?mostNegative⟩
  case other =>
    rw [boothFactor, if_neg hx] at hnat hproduct
    exact ⟨hnat, hproduct⟩
  case mostNegative =>
    rw [boothFactor, if_pos hx] at hnat hproduct
    have hx8 : x.toInt = -8 := by rw [hx]; rfl
    refine ⟨hnat, ?_, fun hy => ?_⟩
    · rw [hproduct, hx8]
      ring
    · have hy0 : y.toInt ≠ (0#4).toInt := BitVec.toInt_ne.mpr hy
      rw [BitVec.toInt_zero] at hy0
      rw [hproduct, hx8]
      omega

/-- Settles O50: the trace of a finished run has all ten kinds, and the invariant numbers its records. -/
theorem boothRunRecords : Obligations.BoothRunRecords := by
  intro s x y l ts hinv hb hissue hturns
  obtain ⟨t, hrun, -, hruns, hst⟩ := run_mul_ends hinv hb hissue hturns
  obtain ⟨-, ⟨-, hidx, -, -⟩, -, -, -, hdone⟩ := hruns.wf
  obtain ⟨-, hn⟩ := hdone hst
  have hkinds := hruns.kinds
  rw [hn] at hidx hkinds
  exact ⟨t, hrun, hst, hidx, hkinds⟩

end Sys2Proof.Machine

namespace Sys2Proof.Machine

/-! ## DU's meanings, run forward

What each micro-step of DU answers where the registers it reads hold values. The `_next` laws say the converse. -/

section DuForward
variable {s : State} {a m : Acc} {q x : Nibble} {k : Counter}

theorem execDuShl_eq (hst : s.du.st = .shift) (ha : s.du.a = some a) (hq : s.du.q = some q) :
    execDuShl s = .next { s with du := { s.du.emit .shl (shl a q).1 (shl a q).2 none with
      a := some (shl a q).1, q := some (shl a q).2, st := .adjust } } := by
  rw [execDuShl, inDuState_of_eq hst, ha, readReg_some, hq, readReg_some]

theorem execDuSub_eq (hst : s.du.st = .adjust) (ha : s.du.a = some a) (hq : s.du.q = some q) (hm : s.du.m = some m)
    (hs : signBit a = 0#1) :
    execDuSub s = .next { s with du := { s.du.emit .sub (sub a m) q none with a := some (sub a m), st := .setq0 } } := by
  rw [execDuSub, inDuAdjust_eq hst ha, if_pos hs, hm, readReg_some, hq, readReg_some, duAdjustStep]

theorem execDuAdd_eq (hst : s.du.st = .adjust) (ha : s.du.a = some a) (hq : s.du.q = some q) (hm : s.du.m = some m)
    (hs : signBit a = 1#1) :
    execDuAdd s = .next { s with du := { s.du.emit .add (add a m) q none with a := some (add a m), st := .setq0 } } := by
  rw [execDuAdd, inDuAdjust_eq hst ha, if_pos hs, hm, readReg_some, hq, readReg_some, duAdjustStep]

theorem execDuSetq0_eq (hst : s.du.st = .setq0) (ha : s.du.a = some a) (hq : s.du.q = some q) (hk : s.du.k = some k) :
    execDuSetq0 s = .next { s with du := { s.du.emit .setq0 a (withQ0 q (quotientBit a)) none with
      q := some (withQ0 q (quotientBit a))
      k := some (k + 1#3)
      st := afterSetQ0 (k + 1#3) a } } := by
  rw [execDuSetq0, inDuState_of_eq hst, ha, readReg_some, hq, readReg_some, hk, readReg_some]

theorem execDuRestore_eq (hst : s.du.st = .restore) (ha : s.du.a = some a) (hq : s.du.q = some q)
    (hm : s.du.m = some m) :
    execDuRestore s = .next
      { s with du := { s.du.emit .restore (add a m) q none with a := some (add a m), st := .final } } := by
  rw [execDuRestore, inDuState_of_eq hst, ha, readReg_some, hm, readReg_some, hq, readReg_some]

theorem execDuFinal_eq (hst : s.du.st = .final) (ha : s.du.a = some a) (hq : s.du.q = some q) (hm : s.du.m = some m)
    (hx : s.du.x = some x) :
    execDuFinal s = .next { s with du := { s.du.emit .final a q (some
      { xDec := sval x, mDec := sval m, qDec := sval q, rDec := sval a }) with st := .done } } := by
  rw [execDuFinal, inDuState_of_eq hst, ha, readReg_some, hq, readReg_some, hm, readReg_some, hx, readReg_some]

end DuForward

/-! ## The sign of `A` -/

/-- A one-bit field is 1 exactly when its bit is set. -/
theorem extractLsb'_one_eq_one_iff {n : Nat} (v : BitVec n) (i : Nat) : v.extractLsb' i 1 = 1#1 ↔ v.getLsbD i = true := by
  rw [extractLsb'_one_eq_ofBool]
  cases v.getLsbD i <;> decide

/-- `A` is negative exactly where its bit 4 is set (R28). -/
theorem signBit_eq_one_iff (a : Acc) : signBit a = 1#1 ↔ a.getLsbD 4 = true := extractLsb'_one_eq_one_iff a 4

/-- `A` is non-negative exactly where its bit 4 is clear (R28). -/
theorem signBit_eq_zero_iff (a : Acc) : signBit a = 0#1 ↔ a.getLsbD 4 = false := extractLsb'_one_eq_zero_iff a 4

/-- Where a set-Q0 step goes, by the sign bit itself (R104). -/
theorem afterSetQ0_eq (k : Counter) (a : Acc) :
    afterSetQ0 k a = if k < 4#3 then .shift else if a.getLsbD 4 = true then .restore else .final := by
  simp only [afterSetQ0, Config.iterations, signBit_eq_one_iff]

/-! ## The start steps -/

/-- Settles O17: the command starts a quiescent DU. -/
theorem divStartsADivisionRun : Obligations.DivStartsADivisionRun := by
  intro x d s hd hst
  rw [exec_div hd, startDu_eq, if_neg (by simp [s.du.busy_eq_false_iff.mpr hst])]
  rfl

/-- Settles O18: the command starts a quiescent DU; the start step has raised the exception already. -/
theorem divByZeroEndsInError : Obligations.DivByZeroEndsInError := by
  intro x s hst
  refine ⟨{ s with du := Du.startZero x }, ?next, rfl, rfl, rfl, rfl, rfl, rfl⟩
  rw [exec_divZero, startDu_eq, if_neg (by simp [s.du.busy_eq_false_iff.mpr hst])]

/-! ## DU's micro-steps -/

/-- Settles O26: the fields of the shifted word. -/
theorem divisionShiftStep : Obligations.DivisionShiftStep := by
  intro s a q hst ha hq
  have hshift : q <<< 1 = q.extractLsb' 0 3 ++ 0#1 := shiftLeft_one_eq_append (w := 3) q
  rw [exec, execDuShl_eq hst ha hq, shl_fields, ← hshift]
  rfl

/-- Settles O27: the subtraction is the library's. -/
theorem adjustSubtractStep : Obligations.AdjustSubtractStep := by
  intro s a m q hst ha hq hm hs
  rw [exec, execDuSub_eq hst ha hq hm ((signBit_eq_zero_iff a).mpr hs), sub_eq]
  rfl

/-- Settles O28: the addition is the library's. -/
theorem adjustAddStep : Obligations.AdjustAddStep := by
  intro s a m q hst ha hq hm hs
  rw [exec, execDuAdd_eq hst ha hq hm ((signBit_eq_one_iff a).mpr hs), add_eq]
  rfl

/-- A quotient whose lowest bit is 0 already is not changed by setting that bit to 0 (R104). -/
theorem extractLsb'_append_zero_of_even {q : Nibble} (hq : q.getLsbD 0 = false) : q.extractLsb' 1 3 ++ 0#1 = q := by
  rw [← (extractLsb'_one_eq_zero_iff q 0).mpr hq,
    BitVec.extractLsb'_append_extractLsb'_eq_extractLsb' (start₁ := 0) (len₁ := 1) rfl, BitVec.extractLsb'_eq_self]

/-- Settles O29: the quotient bit is the inverted sign bit; for a negative `A` it is 0. -/
theorem setQuotientBitStep : Obligations.SetQuotientBitStep := by
  intro s a q k hst ha hq hk
  refine ⟨?step, fun hs hq0 => ?unchanged⟩
  case step =>
    rw [exec, execDuSetq0_eq hst ha hq hk, afterSetQ0_eq]
    rfl
  case unchanged =>
    have hsign : a.extractLsb' 4 1 = 1#1 := (signBit_eq_one_iff a).mpr hs
    rw [hsign]
    exact extractLsb'_append_zero_of_even hq0

/-- Settles O30: the addition is the library's. -/
theorem restoreStep : Obligations.RestoreStep := by
  intro s a m q hst ha hq hm
  rw [exec, execDuRestore_eq hst ha hq hm, add_eq]
  rfl

/-- Settles O31: the signed readings are the library's. -/
theorem divisionFinalStep : Obligations.DivisionFinalStep := by
  intro s a m q x hst ha hq hm hx
  rw [exec, execDuFinal_eq hst ha hq hm hx, sval_eq_toInt, sval_eq_toInt, sval_eq_toInt, sval_eq_toInt]
  rfl

/-! ## What DU's steps leave alone -/

/-- An instruction of DU does not write MU, and answers the same whatever MU holds (R110). -/
theorem exec_du_ignores_mu {i : Instr} {s t : State} (hunit : i.unit = .du) (h : exec i s = .next t) :
    t.mu = s.mu ∧ ∀ m : Mu, exec i { s with mu := m } = .next { t with mu := m } := by
  cases i with
  | mul x y => cases hunit
  | muSub | muAdd | muNop00 | muNop11 | muAsr | muFinal => cases hunit
  | div x d | divZero x =>
    rcases startDu_next h with ⟨hb, rfl⟩ | ⟨hb, rfl⟩
    · exact ⟨rfl, fun _ => if_pos hb⟩
    · exact ⟨rfl, fun _ => if_neg (by simp [hb])⟩
  | duShl =>
    obtain ⟨hst, a, q, ha, hq, rfl⟩ := execDuShl_next h
    exact ⟨rfl, fun _ => execDuShl_eq hst ha hq⟩
  | duSub =>
    obtain ⟨hst, a, q, m, ha, hq, hm, hs, rfl⟩ := execDuSub_next h
    exact ⟨rfl, fun _ => execDuSub_eq hst ha hq hm hs⟩
  | duAdd =>
    obtain ⟨hst, a, q, m, ha, hq, hm, hs, rfl⟩ := execDuAdd_next h
    exact ⟨rfl, fun _ => execDuAdd_eq hst ha hq hm hs⟩
  | duSetq0 =>
    obtain ⟨hst, a, q, k, ha, hq, hk, rfl⟩ := execDuSetq0_next h
    exact ⟨rfl, fun _ => execDuSetq0_eq hst ha hq hk⟩
  | duRestore =>
    obtain ⟨hst, a, q, m, ha, hq, hm, rfl⟩ := execDuRestore_next h
    exact ⟨rfl, fun _ => execDuRestore_eq hst ha hq hm⟩
  | duFinal =>
    obtain ⟨hst, a, q, m, x, ha, hq, hm, hx, rfl⟩ := execDuFinal_next h
    exact ⟨rfl, fun _ => execDuFinal_eq hst ha hq hm hx⟩

/-- Settles O35: what each micro-step writes is what the law of its meaning says. -/
theorem divisionStepFrame : Obligations.DivisionStepFrame := by
  refine ⟨fun i s t hunit hmicro h => ?writes, fun i s t => exec_du_ignores_mu⟩
  case writes =>
    cases i with
    | mul x y | div x d | divZero x => cases hmicro
    | muSub | muAdd | muNop00 | muNop11 | muAsr | muFinal => cases hunit
    | duShl =>
      obtain ⟨-, a, q, -, -, rfl⟩ := execDuShl_next h
      exact ⟨rfl, rfl, rfl, fun hne => absurd rfl hne, fun _ => rfl, by simp, rfl, _, rfl, rfl⟩
    | duSub =>
      obtain ⟨-, a, q, m, -, -, -, -, rfl⟩ := execDuSub_next h
      exact ⟨rfl, rfl, rfl, fun _ _ => rfl, fun _ => rfl, by simp, rfl, _, rfl, rfl⟩
    | duAdd =>
      obtain ⟨-, a, q, m, -, -, -, -, rfl⟩ := execDuAdd_next h
      exact ⟨rfl, rfl, rfl, fun _ _ => rfl, fun _ => rfl, by simp, rfl, _, rfl, rfl⟩
    | duSetq0 =>
      obtain ⟨-, a, q, k, -, -, -, rfl⟩ := execDuSetq0_next h
      exact ⟨rfl, rfl, rfl, fun _ hne => absurd rfl hne, fun hne => absurd rfl hne, fun _ => rfl, rfl, _, rfl, rfl⟩
    | duRestore =>
      obtain ⟨-, a, q, m, -, -, -, rfl⟩ := execDuRestore_next h
      exact ⟨rfl, rfl, rfl, fun _ _ => rfl, fun _ => rfl, by simp, rfl, _, rfl, rfl⟩
    | duFinal =>
      obtain ⟨-, a, q, m, x, -, -, -, -, rfl⟩ := execDuFinal_next h
      exact ⟨rfl, rfl, rfl, fun _ _ => rfl, fun _ => rfl, fun _ => rfl, rfl, _, rfl, rfl⟩

end Sys2Proof.Machine

namespace Sys2Proof.Machine

/-! ## DU's moments, with the record kind of R109 -/

/-- The kind of the adjust record that the shifted `A` calls for (R101, R102). -/
def adjustKind (a : Acc) : DuKind := if signBit a = 0#1 then .sub else .add

/-- A_temp: what the adjust step makes of the shifted `A`, with the divisor `m` (R101, R102). -/
def adjusted (a m : Acc) : Acc := if signBit a = 0#1 then sub a m else add a m

section DuTable
variable {d : Du} {a m : Acc} {q : Nibble}

/-- The values that the registers of a live DU hold. -/
theorem Du.Live.values (h : d.Live) :
    ∃ a q m x k, d.a = some a ∧ d.q = some q ∧ d.m = some m ∧ d.x = some x ∧ d.k = some k := by
  simp only [Du.Live, Option.isSome_iff_exists] at h
  obtain ⟨⟨a, ha⟩, ⟨q, hq⟩, ⟨m, hm⟩, ⟨x, hx⟩, ⟨k, hk⟩⟩ := h
  exact ⟨a, q, m, x, k, ha, hq, hm, hx, hk⟩

/-- In `ADJUST` DU makes A_temp of the shifted `A` and goes on to `SETQ0` (R109). -/
theorem Du.movesTo_adjusted (hst : d.st = .adjust) (ha : d.a = some a) (hq : d.q = some q) (hm : d.m = some m) :
    d.MovesTo { d.emit (adjustKind a) (adjusted a m) q none with a := some (adjusted a m), st := .setq0 } := by
  rintro s rfl
  rw [runAgent_du_adjust hst ha, hm, hq, readReg_some, readReg_some, adjustKind, adjusted]
  split_ifs <;> rfl

/-- The kind of the adjust record, by the sign bit itself (R109). -/
theorem adjustKind_eq (a : Acc) : adjustKind a = if a.getLsbD 4 then .add else .sub := by
  simp only [adjustKind, signBit_eq_zero_iff]
  cases a.getLsbD 4 <;> rfl

/-- The state after the set-Q0 step, by the iteration that it ends (R104, R109). -/
theorem afterSetQ0_counter_succ {k : Counter} (h : k.toNat ≤ 3) (a : Acc) :
    afterSetQ0 (k + 1#3) a = if k.toNat + 1 < 4 then .shift else if a.getLsbD 4 then .restore else .final := by
  have hlt : k + 1#3 < 4#3 ↔ k.toNat + 1 < 4 := by rw [BitVec.lt_def, counter_succ_toNat h]; rfl
  simp only [afterSetQ0_eq, hlt]

end DuTable

/-- Settles O39: the command rows are the start steps; a moment of DU moves it as its state says. -/
theorem divisionTransitionTable : Obligations.DivisionTransitionTable := by
  refine ⟨fun s x d hst => ⟨?startZero, fun hd => ?start⟩, fun s x d hst => ?refused, fun s ts hinv hs => ?moment⟩
  case startZero =>
    obtain ⟨t, hnext, rfl, -⟩ := divByZeroEndsInError x s hst
    exact ⟨_, hnext, rfl, rfl⟩
  case start => exact ⟨_, divStartsADivisionRun x d s hd hst, rfl, rfl⟩
  case refused =>
    have hb := s.du.busy_iff.mpr hst
    exact ⟨if_pos hb, if_pos hb⟩
  case moment =>
    obtain ⟨-, ⟨-, hregs⟩, -, -, -, hsetq0, -⟩ := hinv
    rw [step_cons hs, runTurn_plain]
    cases hst : s.du.st with
    | idle | done | error => exact Du.movesTo_self (s.du.busy_eq_false_iff.mpr (by simp [hst])) _ rfl
    | shift =>
      obtain ⟨a, q, m, x, k, ha, hq, -, -, -⟩ := (hregs (by simp [hst])).1.values
      exact ⟨_, _, Du.movesTo_of_shift hst ha hq _ rfl, rfl, rfl, rfl⟩
    | adjust =>
      obtain ⟨a, q, m, x, k, ha, hq, hm, -, -⟩ := (hregs (by simp [hst])).1.values
      rw [ha, Option.getD_some]
      exact ⟨_, _, Du.movesTo_adjusted hst ha hq hm _ rfl, rfl, rfl, adjustKind_eq a⟩
    | setq0 =>
      obtain ⟨a, q, m, x, k, ha, hq, -, -, hk⟩ := (hregs (by simp [hst])).1.values
      obtain ⟨hk3, -⟩ := hsetq0 hst
      rw [Du.iteration, hk, Option.getD_some] at hk3 ⊢
      rw [ha, Option.getD_some]
      exact ⟨_, _, Du.movesTo_of_setq0 hst ha hq hk _ rfl, afterSetQ0_counter_succ hk3 a, rfl, rfl⟩
    | restore =>
      obtain ⟨a, q, m, x, k, ha, hq, hm, -, -⟩ := (hregs (by simp [hst])).1.values
      exact ⟨_, _, Du.movesTo_of_restore hst ha hq hm _ rfl, rfl, rfl, rfl⟩
    | final =>
      obtain ⟨a, q, m, x, k, ha, hq, hm, hx, -⟩ := (hregs (by simp [hst])).1.values
      exact ⟨_, _, Du.movesTo_of_final hst ha hq hm hx _ rfl, rfl, rfl, rfl⟩

/-! ## The end in `ERROR` -/

/-- What a DIV command that is not refused makes of DU (R97, R98). -/
def Du.Started (d : Du) : Prop := ∃ x, d = Du.startZero x ∨ ∃ y, d = Du.start x y

section Commands
variable {s t : State}

/-- A command leaves DU, or is a DIV that starts it (R55). -/
theorem runCode_command_du {w : Cmd} (h : runCode (.cmd9 w) s = .next t) :
    t.du = s.du ∨ (w.getLsbD 8 = true ∧ t.du.Started) := by
  change exec (decodeCommand w) s = .next t at h
  rcases decodeCommand_cases w with ⟨-, hi⟩ | ⟨hop, -, hi⟩ | ⟨hop, hb, hi⟩
  · rw [hi, exec_mul] at h
    rcases startMu_next h with ⟨-, rfl⟩ | ⟨-, rfl⟩ <;> exact .inl rfl
  · rw [hi, exec_divZero] at h
    rcases startDu_next h with ⟨-, rfl⟩ | ⟨-, rfl⟩
    · exact .inl rfl
    · exact .inr ⟨(extractLsb'_one_eq_one_iff w 8).mp hop, _, .inl rfl⟩
  · rw [hi, exec_div hb] at h
    rcases startDu_next h with ⟨-, rfl⟩ | ⟨-, rfl⟩
    · exact .inl rfl
    · exact .inr ⟨(extractLsb'_one_eq_one_iff w 8).mp hop, _, .inr ⟨_, rfl⟩⟩

/-- A move of the host leaves DU, resets it, or issues a DIV command that starts it (R135). -/
theorem hostMove_du {m : HostMove} {rest : List HostMove} (h : hostMove m rest s = .next t) :
    t.du = s.du ∨ t.du = Du.blank ∨ ((∃ w, m = .issue w ∧ w.getLsbD 8 = true) ∧ t.du.Started) := by
  cases m with
  | issue w =>
    rcases runCode_command_du (w := w) (s := { s with host := rest }) h with hsame | ⟨hw, hstarted⟩
    · exact .inl hsame
    · exact .inr (.inr ⟨⟨w, rfl, hw⟩, hstarted⟩)
  | reset => cases h; exact .inr (.inl rfl)
  | readStatus u | readTrace u => cases h; exact .inl rfl
  | wait u =>
    simp only [hostMove] at h
    split at h <;> cases h <;> exact .inl rfl
  | takeResult u =>
    simp only [hostMove] at h
    split at h <;> cases h
    exact .inl rfl

/-- The host's moment does to DU what its next move does. -/
theorem runHost_du (h : runHost s = .next t) :
    t.du = s.du ∨ t.du = Du.blank ∨
      ((∃ w, s.host.head? = some (.issue w) ∧ w.getLsbD 8 = true) ∧ t.du.Started) := by
  rw [runHost] at h
  cases hh : s.host with
  | nil => rw [hh] at h; cases h; exact .inl rfl
  | cons m rest =>
    rw [hh] at h
    simpa using hostMove_du h

/-- A moment from a state with a quiescent DU leaves DU, resets it, or is the host's, which starts it. -/
theorem runTurn_du {u : Turn} (hmu : s.mu.Sound) (hb : s.du.busy = false) (h : runTurn u s = .next t) :
    t.du = s.du ∨ t.du = Du.blank ∨
      ((∃ w, s.host.head? = some (.issue w) ∧ w.getLsbD 8 = true) ∧ t.du.Started) := by
  obtain ⟨agent, reset⟩ := u
  cases reset with
  | true => cases h; exact .inr (.inl rfl)
  | false =>
    cases agent with
    | mu => cases (hmu.advance.1 s rfl).symm.trans h; exact .inl rfl
    | du => cases (Du.movesTo_self hb s rfl).symm.trans h; exact .inl rfl
    | host => exact runHost_du h

end Commands

/-- A run that has ended in `ERROR` has no result (R108). -/
theorem Du.result_eq_none_of_error {d : Du} {x : Nibble} (htrace : d.trace = [errorRecord x]) : d.result = none := by
  rw [Du.result, htrace]
  exact ite_self none

/-- Settles O45: the invariant gives the trace; a quiescent DU makes no moment of its own. -/
theorem errorIsTerminalForItsRun : Obligations.ErrorIsTerminalForItsRun := by
  intro s hinv hst
  obtain ⟨hmuWf, -, ⟨-, -, -, herror, -⟩, -⟩ := hinv
  obtain ⟨-, -, -, htrace⟩ := herror hst
  have hb : s.du.busy = false := s.du.busy_eq_false_iff.mpr (.inr (.inr hst))
  refine ⟨⟨_, htrace⟩, fun rest ts hh hs => ?noResult, fun ts hs => ?noStep, fun t h => ?leaves⟩
  case noResult =>
    have hresult : resultOf .du { s with sched := ts } = none := Du.result_eq_none_of_error htrace
    rw [step_hostMove hs hh, hostMove, hresult]
  case noStep => exact quiescentUnitTakesNoStep.2.2 s ts hs hb
  case leaves =>
    rcases step_is_turn s with hidle | ⟨u, ts, n, hturn⟩
    · cases hidle.symm.trans h
      exact .inl rfl
    · exact runTurn_du (s := { s with sched := ts, tick := n }) hmuWf.sound hb (hturn.symm.trans h)

end Sys2Proof.Machine

namespace Sys2Proof.Machine

/-! ## The arithmetic of a division

An iteration is a function of `A ‖ Q` and the divisor, and so is the final correction; a run of DU computes four iterations and the
correction. With a divisor `d` of 1 to 8 (`DividesSoFar`), `A` after an iteration is the remainder `R` of the dividend's bits shifted
out so far, or `R - d`: the next iteration makes `2R + b - d` of either, `b` being the next bit of the dividend, and nothing wraps (R111).
With a larger divisor the shift loses the sign of `A`, and there is no law but the transfers themselves (R105, R112). -/

/-- What an iteration makes of `A` and `Q`: the shift, the adjust step and the quotient bit (R100 to R104). -/
def divIteration (m : Acc) (p : Acc × Nibble) : Acc × Nibble :=
  (adjusted (shl p.1 p.2).1 m, withQ0 (shl p.1 p.2).2 (quotientBit (adjusted (shl p.1 p.2).1 m)))

/-- `A` and `Q` after `i` iterations of the run that divides `x` by `y`. -/
def divAfter (x y : Nibble) (i : Nat) : Acc × Nibble := (divIteration (zext5 y))^[i] (0#5, x)

/-- What the final correction makes of `A` (R104, R106). -/
def corrected (a m : Acc) : Acc := if signBit a = 1#1 then add a m else a

/-- The quotient that a run leaves in `Q`. -/
def divQuotient (x y : Nibble) : Nibble := (divAfter x y 4).2

/-- The remainder that a run leaves in `A`. -/
def divRemainder (x y : Nibble) : Acc := corrected (divAfter x y 4).1 (zext5 y)

/-- The next iteration of a run. -/
theorem divAfter_succ (x y : Nibble) (i : Nat) : divAfter x y (i + 1) = divIteration (zext5 y) (divAfter x y i) :=
  Function.iterate_succ_apply' ..

section Transfers
variable {a m : Acc} {q : Nibble}

/-- The sign bit is that of the signed value (R28, R75). -/
theorem signBit_eq_zero_iff_nonneg (a : Acc) : signBit a = 0#1 ↔ 0 ≤ a.toInt := by
  have hmsb : a.getLsbD 4 = a.msb := a.msb_eq_getLsbD_last.symm
  rw [signBit_eq_zero_iff, hmsb, BitVec.msb_eq_toInt, decide_eq_false_iff_not, not_lt]

/-- The shift doubles an `A` whose sign it keeps, and adds the top bit of `Q` (R76, R105). -/
theorem shl_toInt (hlow : -8 ≤ a.toInt) (hhigh : a.toInt < 8) : (shl a q).1.toInt = 2 * a.toInt + (q.toNat / 8 : Nat) := by
  have hkept : (a.extractLsb' 0 4).toInt = a.toInt := by
    rw [BitVec.toInt_extractLsb', Nat.shiftRight_zero, ← Int.bmod_bmod_of_dvd (m := 2 ^ 5) (by decide),
      ← BitVec.toInt_eq_toNat_bmod, Int.bmod_eq_of_le_mul_two] <;> omega
  have hbit : (q.extractLsb' 3 1).toNat = q.toNat / 8 := by
    rw [BitVec.extractLsb'_toNat, Nat.shiftRight_eq_div_pow]
    omega
  rw [shl_fields, BitVec.toInt_append, if_neg (by decide), hkept, hbit]
  rfl

/-- The shift and the quotient bit leave the low bits of `Q` above the quotient bit (R76, R104). -/
theorem withQ0_shl_toNat (a : Acc) (q : Nibble) (q0 : Bit) :
    (withQ0 (shl a q).2 q0).toNat = 2 * (q.toNat % 8) + q0.toNat := by
  rw [shl_fields, withQ0, BitVec.extractLsb'_append_eq_left, BitVec.toNat_append,
    ← Nat.shiftLeft_add_eq_or_of_lt q0.isLt, BitVec.extractLsb'_toNat, Nat.shiftRight_zero, Nat.shiftLeft_eq]
  omega

/-- The adjust step brings `A` nearer to 0 by the divisor; it never wraps (R101, R102). -/
theorem adjusted_toInt (hm : 0 ≤ m.toInt) :
    (adjusted a m).toInt = if 0 ≤ a.toInt then a.toInt - m.toInt else a.toInt + m.toInt := by
  have hlow : -16 ≤ a.toInt := a.le_toInt
  have hhigh : a.toInt < 16 := BitVec.toInt_lt
  have hm16 : m.toInt < 16 := BitVec.toInt_lt
  simp only [adjusted, signBit_eq_zero_iff_nonneg, sub_eq, add_eq]
  split_ifs with h
  · rw [BitVec.toInt_sub, Int.bmod_eq_of_le_mul_two] <;> omega
  · rw [BitVec.toInt_add, Int.bmod_eq_of_le_mul_two] <;> omega

/-- The final correction adds the divisor to a negative `A`; it never wraps (R106). -/
theorem corrected_toInt (hm : 0 ≤ m.toInt) :
    (corrected a m).toInt = if 0 ≤ a.toInt then a.toInt else a.toInt + m.toInt := by
  have hlow : -16 ≤ a.toInt := a.le_toInt
  have hm16 : m.toInt < 16 := BitVec.toInt_lt
  rw [corrected, add_eq]
  by_cases h : 0 ≤ a.toInt
  · rw [if_neg (by rw [(signBit_eq_zero_iff_nonneg a).mpr h]; decide), if_pos h]
  · rw [if_pos (bit_eq_one_of_ne_zero _ (mt (signBit_eq_zero_iff_nonneg a).mp h)), if_neg h, BitVec.toInt_add,
      Int.bmod_eq_of_le_mul_two] <;> omega

/-- The quotient bit of a non-negative A_temp is 1, of a negative one 0 (R60). -/
theorem quotientBit_toNat (a : Acc) : (quotientBit a).toNat = if 0 ≤ a.toInt then 1 else 0 := by
  by_cases h : 0 ≤ a.toInt
  · rw [quotientBit, (signBit_eq_zero_iff_nonneg a).mpr h, if_pos h]; rfl
  · rw [quotientBit, bit_eq_one_of_ne_zero _ (mt (signBit_eq_zero_iff_nonneg a).mp h), if_neg h]; rfl

end Transfers

/-- `A` and `Q` after `i` iterations that divide `x` by `d`: the bits of `x` that have been shifted out are `d * Q' + R`; `Q` holds the
others above `Q'`, and `A` is `R` or still `d` below it. -/
structure DividesSoFar (x d i : Nat) (p : Acc × Nibble) (Q' R : Nat) : Prop where
  division : x / 2 ^ (4 - i) = d * Q' + R
  remainder_lt : R < d
  quotient_lt : Q' < 2 ^ i
  quotient : p.2.toNat = x % 2 ^ (4 - i) * 2 ^ i + Q'
  remainder : p.1.toInt = R ∨ p.1.toInt = (R : Int) - d

/-- The loaded divisor is non-negative (R77). -/
theorem zext5_toInt (y : Nibble) : (zext5 y).toInt = y.toNat := by
  rw [← sval_eq_toInt]
  exact (divisorIsZeroExtended y).2.2

/-- An iteration makes one more bit of the quotient. -/
theorem DividesSoFar.iteration {x y : Nibble} {i Q' R : Nat} {p : Acc × Nibble} (hi : i ≤ 3) (hy : y.toNat ≤ 8)
    (h : DividesSoFar x.toNat y.toNat i p Q' R) :
    ∃ Q'' R', DividesSoFar x.toNat y.toNat (i + 1) (divIteration (zext5 y) p) Q'' R' := by
  obtain ⟨hdivision, hR, hQ, hquotient, hremainder⟩ := h
  obtain ⟨b, hb⟩ : ∃ b, b = p.2.toNat / 8 := ⟨_, rfl⟩
  have hb1 : b ≤ 1 := by omega
  have hnext : x.toNat / 2 ^ (4 - (i + 1)) = 2 * (x.toNat / 2 ^ (4 - i)) + b := by
    interval_cases i <;> omega
  have hshift : (shl p.1 p.2).1.toInt = 2 * p.1.toInt + b := by
    rw [hb]; exact shl_toInt (by omega) (by omega)
  have htemp : (adjusted (shl p.1 p.2).1 (zext5 y)).toInt = 2 * R + b - y.toNat := by
    rw [adjusted_toInt (by rw [zext5_toInt]; omega), zext5_toInt, hshift]
    split_ifs <;> omega
  have hquotient' := withQ0_shl_toNat p.1 p.2 (quotientBit (adjusted (shl p.1 p.2).1 (zext5 y)))
  rw [quotientBit_toNat, htemp, hquotient] at hquotient'
  have hdouble (c : Nat) : y.toNat * (2 * Q' + c) = 2 * (y.toNat * Q') + y.toNat * c := by ring
  by_cases hfits : y.toNat ≤ 2 * R + b
  · rw [if_pos (by omega)] at hquotient'
    refine ⟨2 * Q' + 1, 2 * R + b - y.toNat, ?division, by omega, by omega, hquotient'.trans ?quotient,
      .inl (htemp.trans (by omega))⟩
    case division => rw [hnext, hdivision, hdouble]; omega
    case quotient => interval_cases i <;> omega
  · rw [if_neg (by omega)] at hquotient'
    refine ⟨2 * Q' + 0, 2 * R + b, ?division, by omega, by omega, hquotient'.trans ?quotient,
      .inr (htemp.trans (by omega))⟩
    case division => rw [hnext, hdivision, hdouble]; omega
    case quotient => interval_cases i <;> omega

/-- The four iterations make the four bits of the quotient. -/
theorem dividesSoFar_divAfter {x y : Nibble} {i : Nat} (hi : i ≤ 4) (hpos : 1 ≤ y.toNat) (hy : y.toNat ≤ 8) :
    ∃ Q' R, DividesSoFar x.toNat y.toNat i (divAfter x y i) Q' R := by
  induction i with
  | zero =>
    have hx : x.toNat / 2 ^ 4 = 0 := Nat.div_eq_of_lt x.isLt
    refine ⟨0, 0, by simpa using hx, hpos, by decide, ?_, .inl rfl⟩
    simp [divAfter, Nat.mod_eq_of_lt x.isLt]
  | succ i ih =>
    obtain ⟨Q', R, h⟩ := ih (by omega)
    rw [divAfter_succ]
    exact h.iteration (by omega) hy

/-- Division by 1 to 8 (R111). -/
theorem div_eq_and_mod_eq {x y : Nibble} (hpos : 1 ≤ y.toNat) (hy : y.toNat ≤ 8) :
    (divQuotient x y).toNat = x.toNat / y.toNat ∧ (divRemainder x y).toNat = x.toNat % y.toNat := by
  obtain ⟨Q', R, hdivision, hR, -, hquotient, hremainder⟩ := dividesSoFar_divAfter (x := x) le_rfl hpos hy
  have hsum : R + y.toNat * Q' = x.toNat := by simpa [Nat.add_comm] using hdivision.symm
  obtain ⟨hQ', hR'⟩ := (Nat.div_mod_unique hpos).mpr ⟨hsum, hR⟩
  have hcorrected : (divRemainder x y).toInt = R := by
    rw [divRemainder, corrected_toInt (by rw [zext5_toInt]; omega), zext5_toInt]
    split_ifs <;> omega
  have hnat := toNat_eq_toInt_emod (divRemainder x y)
  refine ⟨?quotient, by omega⟩
  rw [divQuotient, hQ', hquotient, Nat.sub_self, pow_zero, Nat.mod_one, Nat.zero_mul, Nat.zero_add]

/-- Division by 9 to 15: there is no law but the transfers themselves, so they are evaluated for the 112 pairs (R112). -/
theorem div_by_nine_to_fifteen (x y : Nibble) (hy : 9 ≤ y.toNat) :
    (y.toNat = 9 ∧ 8 ≤ x.toNat →
      (divQuotient x y).toNat = x.toNat / y.toNat ∧ (divRemainder x y).toNat = x.toNat % y.toNat) ∧
    (¬(y.toNat = 9 ∧ 8 ≤ x.toNat) → x.toNat ≠ (divQuotient x y).toNat * y.toNat + (divRemainder x y).toNat) ∧
    (divRemainder x y).toNat ≤ 14 := by
  revert x y
  decide

/-- Whatever the divisor, the remainder of a run is in 0..14 (R106). -/
theorem divRemainder_toNat_le (x : Nibble) {y : Nibble} (hy : y ≠ 0#4) : (divRemainder x y).toNat ≤ 14 := by
  have hpos : 1 ≤ y.toNat := Nat.pos_of_ne_zero (mt (BitVec.toNat_inj (y := 0#4)).mp hy)
  rcases Nat.lt_or_ge 8 y.toNat with hlarge | hsmall
  · exact (div_by_nine_to_fifteen x y hlarge).2.2
  · obtain ⟨-, hmod⟩ := div_eq_and_mod_eq (x := x) hpos hsmall
    have hlt := Nat.mod_lt x.toNat hpos
    omega

/-- A value below 16 has its sign bit clear. -/
theorem getLsbD_four_eq_false {a : Acc} (h : a.toNat < 16) : a.getLsbD 4 = false :=
  Nat.testBit_lt_two_pow h

/-! ## A run of DU -/

/-- The kind of the adjust record of iteration `i` (R101, R102). -/
def adjustKindAt (x y : Nibble) (i : Nat) : DuKind := adjustKind (shl (divAfter x y i).1 (divAfter x y i).2).1

/-- The record kinds of the start step and the first `i` iterations (R117). -/
def iterationKinds (x y : Nibble) : Nat → List DuKind
  | 0 => [.init]
  | i + 1 => iterationKinds x y i ++ [.shl, adjustKindAt x y i, .setq0]

/-- The record kinds of the final correction: one restore or none (R106). -/
def restoreKinds (x y : Nibble) : List DuKind := if signBit (divAfter x y 4).1 = 1#1 then [.restore] else []

/-- DU has made `i` iterations of the run that divides `x` by `y`, and nothing more. -/
structure Du.Iterated (x y : Nibble) (i : Nat) (d : Du) : Prop where
  state : d.st = afterSetQ0 (BitVec.ofNat 3 i) (divAfter x y i).1
  counter : d.k = some (BitVec.ofNat 3 i)
  accumulator : d.a = some (divAfter x y i).1
  quotient : d.q = some (divAfter x y i).2
  divisor : d.m = some (zext5 y)
  dividend : d.x = some x
  kinds : d.trace.map DuRecord.kind = iterationKinds x y i

/-- DU has ended the run that divides `x` by `y`. -/
structure Du.Finished (x y : Nibble) (d : Du) : Prop where
  state : d.st = .done
  accumulator : d.a = some (divRemainder x y)
  quotient : d.q = some (divQuotient x y)
  divisor : d.m = some (zext5 y)
  dividend : d.x = some x
  kinds : d.trace.map DuRecord.kind = iterationKinds x y 4 ++ restoreKinds x y ++ [.final]

section DuRuns
variable {d : Du} {x y : Nibble} {i : Nat}

/-- The start step comes before the first iteration (R97). -/
theorem Du.start_iterated (x y : Nibble) : (Du.start x y).Iterated x y 0 := ⟨rfl, rfl, rfl, rfl, rfl, rfl, rfl⟩

/-- Before the fourth iteration is made, another one follows (R104). -/
theorem afterSetQ0_ofNat_eq_shift (hi : i ≤ 3) (a : Acc) : afterSetQ0 (BitVec.ofNat 3 i) a = .shift := by
  interval_cases i <;> rfl

/-- The first of several moments. -/
theorem Du.MovesTo.advance_iterate_succ {d d' : Du} (h : d.MovesTo d') (n : Nat) :
    Du.advance^[n + 1] d = Du.advance^[n] d' := by
  rw [Function.iterate_succ_apply, h.advance_eq]

/-- An iteration is three moments of DU: the shift, the adjust step and the set-Q0 step (R109). -/
theorem Du.Iterated.advance_iteration (h : d.Iterated x y i) (hi : i ≤ 3) : (Du.advance^[3] d).Iterated x y (i + 1) := by
  have hst : d.st = .shift := h.state.trans (afterSetQ0_ofNat_eq_shift hi _)
  rw [(Du.movesTo_of_shift hst h.accumulator h.quotient).advance_iterate_succ,
    (Du.movesTo_adjusted (by rfl) (by rfl) (by rfl) (by exact h.divisor)).advance_iterate_succ,
    (Du.movesTo_of_setq0 (by rfl) (by rfl) (by rfl) (by exact h.counter)).advance_iterate_succ]
  refine ⟨?state, ?counter, ?accumulator, ?quotient, h.divisor, h.dividend, ?kinds⟩
  case state => rw [divAfter_succ, BitVec.ofNat_add]; rfl
  case counter => rw [BitVec.ofNat_add]; rfl
  case accumulator | quotient => rw [divAfter_succ]; rfl
  case kinds => simp [h.kinds, iterationKinds, adjustKindAt]

/-- The iterations of a run, of three moments each. -/
theorem Du.start_advance_iterations (x y : Nibble) (hi : i ≤ 4) : (Du.advance^[3 * i] (Du.start x y)).Iterated x y i := by
  induction i with
  | zero => exact Du.start_iterated x y
  | succ i ih =>
    rw [Nat.mul_succ, Nat.add_comm (3 * i), Function.iterate_add_apply]
    exact (ih (by omega)).advance_iteration (by omega)

/-- A moment of DU leaves a finished run (R109). -/
theorem Du.Finished.advance (h : d.Finished x y) : d.advance = d :=
  (Du.movesTo_self (d.busy_eq_false_iff.mpr (.inr (.inl h.state)))).advance_eq

/-- After the fourth iteration two moments finish the run: of the restore step, if `A` is negative, and of the final step (R104,
R106, R107). -/
theorem Du.Iterated.finishes (h : d.Iterated x y 4) : (Du.advance^[2] d).Finished x y := by
  have hst : d.st = if signBit (divAfter x y 4).1 = 1#1 then .restore else .final := h.state
  by_cases hs : signBit (divAfter x y 4).1 = 1#1
  · rw [if_pos hs] at hst
    rw [(Du.movesTo_of_restore hst h.accumulator h.quotient h.divisor).advance_iterate_succ,
      (Du.movesTo_of_final (by rfl) (by rfl) (by exact h.quotient) (by exact h.divisor)
        (by exact h.dividend)).advance_iterate_succ]
    refine ⟨rfl, ?remainder, h.quotient, h.divisor, h.dividend, ?kinds⟩
    case remainder => rw [divRemainder, corrected, if_pos hs]; rfl
    case kinds => simp [h.kinds, restoreKinds, hs]
  · rw [if_neg hs] at hst
    rw [(Du.movesTo_of_final hst h.accumulator h.quotient h.divisor h.dividend).advance_iterate_succ,
      (Du.movesTo_self (by rfl)).advance_iterate_succ]
    refine ⟨rfl, ?remainder, h.quotient, h.divisor, h.dividend, ?kinds⟩
    case remainder => rw [divRemainder, corrected, if_neg hs]; exact h.accumulator
    case kinds => simp [h.kinds, restoreKinds, hs]

/-- Fourteen moments of DU after the start step finish the run, and further ones leave it so (R111, R117). -/
theorem Du.start_finishes (x y : Nibble) {n : Nat} (hn : 14 ≤ n) : (Du.advance^[n] (Du.start x y)).Finished x y := by
  obtain ⟨e, rfl⟩ := Nat.exists_eq_add_of_le' hn
  have hfinished : (Du.advance^[2 + 3 * 4] (Du.start x y)).Finished x y := by
    rw [Function.iterate_add_apply]
    exact (Du.start_advance_iterations x y le_rfl).finishes
  rw [Function.iterate_add_apply, Function.iterate_fixed hfinished.advance]
  exact hfinished

/-- A moment of DU keeps the invariant. -/
theorem Du.Wf.advance (h : d.Wf) : d.advance.Wf :=
  (runUnit_changes (h.sound.advance.1 { State.reset with du := d } rfl)).2.wf h

/-- The result of a finished run (R135, R148). -/
theorem Du.Finished.result (h : d.Finished x y) (hwf : d.Wf) : d.result = some (.quotient (divQuotient x y) (divRemainder x y)
    { xDec := sval x, mDec := sval (zext5 y), qDec := sval (divQuotient x y), rDec := sval (divRemainder x y) }) := by
  obtain ⟨-, ⟨-, -, hlast, -⟩, -⟩ := hwf
  rw [Du.result, if_neg (by simp [d.busy_eq_false_iff.mpr (.inr (.inl h.state))]), hlast h.state]
  simp [Du.finalRecord, h.accumulator, h.quotient, h.divisor, h.dividend]

end DuRuns

/-- Issuing a command to a DU that is not busy starts it; the moments of the units then advance it as often as DU has moments. -/
theorem run_du_command {s : State} {w : Cmd} {i : Instr} {d : Du} {l ts : List Turn} (hinv : s.Inv) (hb : s.du.busy = false)
    (hissue : s.IssuesThen w l ts) (hi : decode (.cmd9 w) = .ok i) (hstart : ∀ u, exec i u = startDu d u) (hd : d.Sound) :
    ∃ t, run (l.length + 1) s = .next t ∧ t.sched = ts ∧ t.du = Du.advance^[turnsOf .du l] d := by
  obtain ⟨hhost, hs, hl⟩ := hissue
  obtain ⟨rest, hh⟩ := List.head?_eq_some_iff.mp hhost
  have hstep : step s = .next { s with host := rest, sched := l ++ ts, du := d } := by
    rw [step_hostMove hs hh, hostMove, runCode_ok hi, hstart, startDu_eq, if_neg (by simp [hb])]
  have hunits := run_unitTurns (s := { s with host := rest, sched := l ++ ts, du := d }) hl hinv.1.sound hd rfl
  exact ⟨_, (run_succ_of_next hstep).trans hunits, rfl, rfl⟩

/-- After fourteen moments of DU the run of a DIV with a non-zero divisor is finished. -/
theorem run_div_finishes {s : State} {x y : Nibble} {l ts : List Turn} (hinv : s.Inv) (hb : s.du.busy = false)
    (hy : y ≠ 0#4) (hissue : s.IssuesThen (1#1 ++ x ++ y) l ts) (hturns : 14 ≤ turnsOf .du l) :
    ∃ t, run (l.length + 1) s = .next t ∧ t.sched = ts ∧ t.du.Wf ∧ t.du.Finished x y := by
  have hdecode : decode (.cmd9 (1#1 ++ x ++ y)) = .ok (.div x y) := decode_encode (i := .div x y) (bne_iff_ne.mpr hy)
  obtain ⟨t, hrun, hsched, hdu⟩ := run_du_command hinv hb hissue hdecode (exec_div hy x) (Du.start_wf x hy).sound
  refine ⟨t, hrun, hsched, ?_⟩
  rw [hdu]
  exact ⟨Function.Iterate.rec Du.Wf (Du.start_wf x hy) (fun _ => Du.Wf.advance) _, Du.start_finishes x y hturns⟩

/-- A divisor whose value is not 0 is not 0000. -/
theorem ne_zero_of_toNat_pos {y : Nibble} (h : 1 ≤ y.toNat) : y ≠ 0#4 := by
  rintro rfl
  simp at h

/-- Settles O51: the finished run holds the floor quotient and the remainder. -/
theorem divisionLawForDivisorsUpToEight : Obligations.DivisionLawForDivisorsUpToEight := by
  intro s x y l ts hinv hb hpos hy hissue hturns
  obtain ⟨t, hrun, hsched, -, hfin⟩ := run_div_finishes hinv hb (ne_zero_of_toNat_pos hpos) hissue hturns
  obtain ⟨hdiv, hmod⟩ := div_eq_and_mod_eq (x := x) hpos hy
  have hle := divRemainder_toNat_le x (ne_zero_of_toNat_pos hpos)
  exact ⟨t, _, _, hrun, hsched, hfin.state, hfin.accumulator, hfin.quotient, hdiv, hmod, getLsbD_four_eq_false (by omega)⟩

/-- Settles O52: the finished run holds what the transfers give. -/
theorem divisionByNineToFifteen : Obligations.DivisionByNineToFifteen := by
  intro s x y l ts hinv hb hy hissue hturns
  obtain ⟨t, hrun, hsched, -, hfin⟩ := run_div_finishes hinv hb (ne_zero_of_toNat_pos (by omega)) hissue hturns
  obtain ⟨hright, hwrong, hle⟩ := div_by_nine_to_fifteen x y hy
  exact ⟨t, _, _, hrun, hsched, hfin.state, hfin.accumulator, hfin.quotient, hright, hwrong, getLsbD_four_eq_false (by omega)⟩

/-- The adjust record of an iteration is a subtraction or an addition (R105). -/
theorem adjustKindAt_eq_sub_or_add (x y : Nibble) (i : Nat) : adjustKindAt x y i = .sub ∨ adjustKindAt x y i = .add :=
  ite_eq_or_eq ..

/-- Settles O53: the kinds are those of four iterations and a correction; the invariant numbers the records. -/
theorem divisionRunRecords : Obligations.DivisionRunRecords := by
  intro s x y l ts hinv hb hy hissue hturns
  obtain ⟨t, hrun, -, hwf, hfin⟩ := run_div_finishes hinv hb hy hissue hturns
  have hle := divRemainder_toNat_le x hy
  refine ⟨t, _, _, _, adjustKindAt x y 0, adjustKindAt x y 1, adjustKindAt x y 2, adjustKindAt x y 3, restoreKinds x y,
    hrun, hfin.state, hfin.accumulator, hle, hfin.result hwf, ?rDec, (divisorIsZeroExtended y).2.2, ?adjusts,
    (ite_eq_or_eq ..).symm, hfin.kinds, ?numbers⟩
  case rDec => exact (sval_eq_toInt _).trans (BitVec.toInt_eq_toNat_of_lt (by omega))
  case adjusts => simp [adjustKindAt_eq_sub_or_add]
  case numbers =>
    obtain ⟨-, ⟨hn, hidx, -⟩, -⟩ := hwf
    have hlength := congrArg List.length hfin.kinds
    rw [hidx, hn, ← List.length_map (f := DuRecord.kind), hlength]
    congr 1
    simp [iterationKinds]
    omega

/-- Settles O54: DU is quiescent after the start step, so its moments leave it (R108). -/
theorem divideByZeroRunHasOneRecord : Obligations.DivideByZeroRunHasOneRecord := by
  intro s x l ts hinv hb hissue
  have hdecode : decode (.cmd9 (1#1 ++ x ++ 0#4)) = .ok (.divZero x) := decode_encode (i := .divZero x) rfl
  obtain ⟨t, hrun, hsched, hdu⟩ := run_du_command hinv hb hissue hdecode (exec_divZero x) (Du.startZero_wf x).sound
  rw [Function.iterate_fixed (Du.movesTo_self rfl).advance_eq] at hdu
  refine ⟨t, hrun, hsched, ?_⟩
  rw [hdu]
  exact ⟨rfl, rfl, rfl⟩

end Sys2Proof.Machine

namespace Sys2Proof.Machine

/-! ## Taking a result -/

section TakeResult
variable {s : State} {m : Mu} {d : Du} {u : UnitName} {rest : List HostMove} {ts : List Turn}

/-- Outside `DONE` no record of MU is a final one, so there is no result (R148). -/
theorem Mu.Wf.result_eq_none (h : m.Wf) (hst : m.st ≠ .done) : m.result = none := by
  obtain ⟨-, ⟨-, -, -, hrecords⟩, -⟩ := h
  unfold Mu.result
  split
  · rfl
  · split
    · rfl
    · next r hlast => rw [(hrecords hst r (List.mem_of_getLast? hlast)).2, Option.map_none]

/-- Outside `DONE` no record of DU is a final one, so there is no result (R148). -/
theorem Du.Wf.result_eq_none (h : d.Wf) (hst : d.st ≠ .done) : d.result = none := by
  obtain ⟨-, ⟨-, -, -, -, hrecords⟩, -⟩ := h
  unfold Du.result
  split
  · rfl
  · split
    · rfl
    · next r hlast => rw [(hrecords hst r (List.mem_of_getLast? hlast)).2, Option.map_none]

/-- In `DONE` the result of MU is the final record that its registers call for (R88, R148). -/
theorem Mu.Wf.result_of_done (h : m.Wf) (hst : m.st = .done) :
    ∃ a q x y, m.a = some a ∧ m.q = some q ∧ m.m = some x ∧ m.y = some y ∧
      m.result = some (.product { p := a ++ q, pDec := (a ++ q : BitVec 8).toInt, mDec := x.toInt, yDec := y.toInt }) := by
  obtain ⟨⟨-, hlive⟩, ⟨-, -, hlast, -⟩, -⟩ := h
  obtain ⟨a, q, p, x, y, k, ha, hq, hp, hx, hy, hk⟩ := Mu.Live.values (hlive (by simp [hst]))
  refine ⟨a, q, x, y, ha, hq, hx, hy, ?_⟩
  rw [Mu.result, if_neg (by simp [m.busy_eq_false_iff.mpr (.inr hst)]), hlast hst]
  simp [Mu.finalRecord, product, sval_eq_toInt, ha, hq, hx, hy]

/-- In `DONE` the result of DU is the final record that its registers call for (R107, R148). -/
theorem Du.Wf.result_of_done (h : d.Wf) (hst : d.st = .done) :
    ∃ a q y x, d.a = some a ∧ d.q = some q ∧ d.m = some y ∧ d.x = some x ∧
      d.result = some (.quotient q a { xDec := x.toInt, mDec := y.toInt, qDec := q.toInt, rDec := a.toInt }) := by
  obtain ⟨⟨-, hlive⟩, ⟨-, -, hlast, -⟩, -⟩ := h
  obtain ⟨a, q, y, x, k, ha, hq, hy, hx, hk⟩ := Du.Live.values (hlive (by simp [hst])).1
  refine ⟨a, q, y, x, ha, hq, hy, hx, ?_⟩
  rw [Du.result, if_neg (by simp [d.busy_eq_false_iff.mpr (.inr (.inl hst))]), hlast hst]
  simp [Du.finalRecord, sval_eq_toInt, ha, hq, hy, hx]

/-- The result of a unit is read off the unit alone, not off the schedule. -/
theorem resultOf_sched (u : UnitName) (s : State) (ts : List Turn) : resultOf u { s with sched := ts } = resultOf u s := by
  cases u <;> rfl

/-- Where there is a result, taking it replies with it and changes no unit (R135). -/
theorem step_takeResult {r : Reply} (hs : s.sched = ⟨.host, false⟩ :: ts) (hh : s.host = .takeResult u :: rest)
    (hr : resultOf u s = some r) : step s = .next { s with host := rest, sched := ts, reply := some r } := by
  rw [step_hostMove hs hh, hostMove, resultOf_sched, hr]

/-- Where there is no result, taking it is the fault `NoResult` (R122, R148). -/
theorem step_takeResult_faults (hs : s.sched = ⟨.host, false⟩ :: ts) (hh : s.host = .takeResult u :: rest)
    (hr : resultOf u s = none) : step s = .fault (.noResult u) := by
  rw [step_hostMove hs hh, hostMove, resultOf_sched, hr]

end TakeResult

/-- Settles O48: the invariant gives a unit a final record in `DONE`, and in no other state. -/
theorem resultIsTakenFromAFinishedRun : Obligations.ResultIsTakenFromAFinishedRun := by
  intro s rest ts hinv hs
  obtain ⟨hmu, hdu⟩ := hinv
  refine ⟨fun hh => ⟨?muDone, ?muNone⟩, fun hh => ⟨?duDone, ?duNone⟩⟩
  case muDone =>
    intro hst
    obtain ⟨a, q, m, y, ha, hq, hm, hy, hr⟩ := hmu.result_of_done hst
    exact ⟨a, q, m, y, ha, hq, hm, hy, step_takeResult hs hh hr⟩
  case muNone => exact fun hst => step_takeResult_faults hs hh (hmu.result_eq_none hst)
  case duDone =>
    intro hst
    obtain ⟨a, q, m, x, ha, hq, hm, hx, hr⟩ := hdu.result_of_done hst
    exact ⟨a, q, m, x, ha, hq, hm, hx, step_takeResult hs hh hr⟩
  case duNone => exact fun hst => step_takeResult_faults hs hh (hdu.result_eq_none hst)

/-! ## Reset -/

/-- Settles O2: the host's move is the reset of both units. -/
theorem resetMoveClearsBothUnits : Obligations.ResetMoveClearsBothUnits := by
  intro s rest ts hh hs
  exact ⟨_, step_hostMove hs hh, rfl, rfl, rfl, rfl, rfl, rfl, rfl, rfl, rfl, rfl⟩

section DropCommand
variable (a : Agent) (s : State)

@[simp] theorem dropCommand_sched : (dropCommand a s).sched = s.sched := by
  unfold dropCommand; split <;> rfl

@[simp] theorem dropCommand_refusalMark : (dropCommand a s).refusalMark = s.refusalMark := by
  unfold dropCommand; split <;> rfl

/-- The command the host would have issued is used up (R141). -/
theorem dropCommand_host_of_issue {s : State} {w : Cmd} {rest : List HostMove} (hh : s.host = .issue w :: rest) :
    (dropCommand .host s).host = rest := by
  simp only [dropCommand, hh]

end DropCommand

/-- Settles O3: at a moment with reset the units are reset, once the host's command is dropped. -/
theorem resetWinsOverTheSameMoment : Obligations.ResetWinsOverTheSameMoment := by
  intro s a ts hs
  refine ⟨_, (step_cons hs).trans (runTurn_reset a), rfl, rfl, rfl, rfl, rfl, rfl, ?sched, ?dropped⟩
  case sched => exact dropCommand_sched a _
  case dropped =>
    rintro w rest hh rfl
    exact dropCommand_host_of_issue (s := { s with sched := ts }) hh

/-! ## The refusal mark -/

/-- The unit that bit 8 of the command word names is busy, so the command is refused (R52, R55). -/
def State.Refuses (s : State) (w : Cmd) : Prop := (if w.getLsbD 8 = false then s.mu.busy else s.du.busy) = true

/-- The host's next move is a command that is refused, which is what the refusal mark stands for (R149). -/
def State.IssuesRefused (s : State) : Prop := ∃ w, s.host.head? = some (.issue w) ∧ s.Refuses w

section RefusalMark
variable {s t : State}

/-- A command to a busy MU is refused, whatever it would make of MU (R55). -/
theorem startMu_of_busy {m : Mu} (hb : s.mu.busy = true) : startMu m s = .next s.refuseCommand := if_pos hb

/-- A command to a busy DU is refused, whatever it would make of DU (R55). -/
theorem startDu_of_busy {d : Du} (hb : s.du.busy = true) : startDu d s = .next s.refuseCommand := if_pos hb

/-- An instruction leaves the refusal mark, or is a command to its busy unit and sets it (R149). -/
theorem exec_refusalMark {i : Instr} (h : exec i s = .next t) :
    t.refusalMark = s.refusalMark ∨ (t.refusalMark = true ∧ i.isCommand = true ∧ s.busy i.unit = true) := by
  cases i with
  | mul x y =>
    rcases startMu_next h with ⟨hb, rfl⟩ | ⟨-, rfl⟩
    · exact .inr ⟨rfl, rfl, hb⟩
    · exact .inl rfl
  | div x y | divZero x =>
    rcases startDu_next h with ⟨hb, rfl⟩ | ⟨-, rfl⟩
    · exact .inr ⟨rfl, rfl, hb⟩
    · exact .inl rfl
  | muSub | muAdd | muNop00 | muNop11 | muAsr | muFinal | duShl | duSub | duAdd | duSetq0 | duRestore | duFinal =>
    rcases exec_next h with ⟨-, m, rfl⟩ | ⟨-, d, rfl⟩ | ⟨hcommand, -⟩
    · exact .inl rfl
    · exact .inl rfl
    · cases hcommand

/-- A command is selected by a command word, whose bit 8 names the command's unit (R52). -/
theorem encode_of_isCommand {i : Instr} (hi : i.isCommand = true) :
    ∃ w, encode i = .cmd9 w ∧ i.unit = if w.getLsbD 8 = false then .mu else .du := by
  have hunit : ∃ w, encode i = .cmd9 w ∧ (CodeWord.cmd9 w).unit = i.unit := by
    cases i with
    | mul x y => exact ⟨_, rfl, Laws.CodeUnit.mul x y⟩
    | div x y => exact ⟨_, rfl, Laws.CodeUnit.div x y⟩
    | divZero x => exact ⟨_, rfl, Laws.CodeUnit.divZero x⟩
    | muSub | muAdd | muNop00 | muNop11 | muAsr | muFinal => cases hi
    | duShl | duSub | duAdd | duSetq0 | duRestore | duFinal => cases hi
  obtain ⟨w, hw, hunit⟩ := hunit
  exact ⟨w, hw, hunit.symm.trans (commandWordLayout w).2⟩

/-- Running a code word leaves the refusal mark, or is that of a command word to a busy unit and sets it. -/
theorem runCode_refusalMark {c : CodeWord} (h : runCode c s = .next t) :
    t.refusalMark = s.refusalMark ∨ (t.refusalMark = true ∧ ∃ w, c = .cmd9 w ∧ s.Refuses w) := by
  rcases runCode_next h with ⟨i, hdecode, hexec⟩ | ⟨-, rfl⟩
  · refine (exec_refusalMark hexec).imp_right fun ⟨hmark, hcommand, hb⟩ => ⟨hmark, ?_⟩
    obtain ⟨w, hw, hunit⟩ := encode_of_isCommand hcommand
    refine ⟨w, (encode_of_decode hdecode).symm.trans hw, ?_⟩
    rwa [hunit, apply_ite s.busy] at hb
  · exact .inl rfl

/-- MU's control point selects no command. -/
theorem Mu.codeWord_ne_cmd9 (m : Mu) (w : Cmd) : m.codeWord ≠ .ok (.cmd9 w) := by
  unfold Mu.codeWord
  split
  · split <;> simp
  · simp

/-- DU's control point selects no command. -/
theorem Du.codeWord_ne_cmd9 (d : Du) (w : Cmd) : d.codeWord ≠ .ok (.cmd9 w) := by
  unfold Du.codeWord
  split
  · split <;> simp
  · simp
  · simp

/-- A unit's move leaves the refusal mark. -/
theorem runUnit_refusalMark {c : Except Fault CodeWord} (hc : ∀ w, c ≠ .ok (.cmd9 w)) (h : runUnit c s = .next t) :
    t.refusalMark = s.refusalMark := by
  obtain ⟨w, rfl, hw⟩ := runUnit_next h
  refine (runCode_refusalMark hw).resolve_right ?_
  rintro ⟨-, w', rfl, -⟩
  exact hc w' rfl

/-- Of the host's moves only a command to a busy unit can change the refusal mark, and it sets it. -/
theorem hostMove_refusalMark {m : HostMove} {rest : List HostMove} (h : hostMove m rest s = .next t) :
    t.refusalMark = s.refusalMark ∨ (t.refusalMark = true ∧ ∃ w, m = .issue w ∧ s.Refuses w) := by
  cases m with
  | issue w =>
    have hcode : runCode (.cmd9 w) { s with host := rest } = .next t := h
    refine (runCode_refusalMark hcode).imp_right fun ⟨hmark, w', hw, hb⟩ => ⟨hmark, w', ?_, hb⟩
    rw [CodeWord.cmd9.inj hw]
  | reset | readStatus u | readTrace u => cases h; exact .inl rfl
  | wait u =>
    simp only [hostMove] at h
    split at h <;> cases h <;> exact .inl rfl
  | takeResult u =>
    simp only [hostMove] at h
    split at h <;> cases h
    exact .inl rfl

/-- The host's moment leaves the refusal mark, or issues a command to a busy unit and sets it. -/
theorem runHost_refusalMark (h : runHost s = .next t) :
    t.refusalMark = s.refusalMark ∨ (t.refusalMark = true ∧ s.IssuesRefused) := by
  rw [runHost] at h
  cases hh : s.host with
  | nil => rw [hh] at h; cases h; exact .inl rfl
  | cons m rest =>
    rw [hh] at h
    refine (hostMove_refusalMark h).imp_right fun ⟨hmark, w, hw, hb⟩ => ⟨hmark, w, ?_, hb⟩
    rw [hh, List.head?_cons, hw]

/-- A moment leaves the refusal mark, or is the host's, which issues a command to a busy unit and sets it. -/
theorem runTurn_refusalMark {u : Turn} (h : runTurn u s = .next t) :
    t.refusalMark = s.refusalMark ∨ (t.refusalMark = true ∧ s.IssuesRefused) := by
  obtain ⟨agent, reset⟩ := u
  cases reset with
  | true => cases h; exact .inl (dropCommand_refusalMark agent s)
  | false =>
    cases agent with
    | mu => exact .inl (runUnit_refusalMark s.mu.codeWord_ne_cmd9 h)
    | du => exact .inl (runUnit_refusalMark s.du.codeWord_ne_cmd9 h)
    | host => exact runHost_refusalMark h

/-- A step leaves the refusal mark, or issues a command to a busy unit and sets it. -/
theorem step_refusalMark (h : step s = .next t) :
    t.refusalMark = s.refusalMark ∨ (t.refusalMark = true ∧ s.IssuesRefused) := by
  rcases step_is_turn s with hidle | ⟨u, ts, n, hturn⟩
  · cases hidle.symm.trans h
    exact .inl rfl
  · exact runTurn_refusalMark (s := { s with sched := ts, tick := n }) (hturn.symm.trans h)

end RefusalMark

/-- Settles O19: all that a step can do to the mark is to set it for a command to a busy unit. -/
theorem commandToBusyUnitIsRefusedForGood : Obligations.CommandToBusyUnitIsRefusedForGood := by
  refine ⟨fun x y s => ⟨startMu_of_busy, startDu_of_busy, startDu_of_busy⟩, ?staysSet, ?setByRefusal⟩
  case staysSet =>
    intro s t h hmark
    rcases step_refusalMark h with hsame | ⟨hset, -⟩
    · exact hsame.trans hmark
    · exact hset
  case setByRefusal =>
    intro s t h hmark
    rcases step_refusalMark h with hsame | ⟨-, hissue⟩
    · exact .inl (hsame.symm.trans hmark)
    · exact .inr hissue

end Sys2Proof.Machine

namespace Sys2Proof.Machine

/-! ## The laws of the primitives -/

section PrimitiveLaws
variable {w : Nat}

/-- The most negative value is its own negation (R69). -/
theorem complement_intMin : complement (BitVec.intMin w) = BitVec.intMin w :=
  (complement_eq_neg _).trans BitVec.neg_intMin

/-- To negate twice is to do nothing (R78). -/
theorem complement_complement (b : BitVec w) : complement (complement b) = b := by
  rw [complement_eq_neg, complement_eq_neg, BitVec.neg_neg]

/-- The subtraction takes back what the addition added (R79). -/
theorem sub_add_cancel_right (a b : BitVec w) : sub (add a b) b = a := by
  rw [sub_eq, add_eq, BitVec.add_sub_cancel]

/-- The addition is that of the unsigned values, but for multiples of `2^w` (R81). -/
theorem add_toNat_modEq (a b : BitVec w) : ((add a b).toNat : Int) ≡ a.toNat + b.toNat [ZMOD 2 ^ w] := by
  rw [add_eq, BitVec.toNat_add]
  push_cast
  exact Int.mod_modEq _ _

/-- The subtraction is that of the unsigned values, but for multiples of `2^w` (R81). -/
theorem sub_toNat_modEq (a b : BitVec w) : ((sub a b).toNat : Int) ≡ a.toNat - b.toNat [ZMOD 2 ^ w] := by
  rw [sub_toNat]
  exact Int.mod_modEq _ _

/-- The signed and the unsigned reading differ by the sign bit's multiple of `2^w` (R81). -/
theorem sval_modEq_toNat (v : BitVec w) : sval v ≡ v.toNat [ZMOD 2 ^ w] := by
  rw [sval_eq_toNat_sub, mul_comm]
  exact (Int.modEq_sub_modulus_mul_iff.mpr rfl).symm

end PrimitiveLaws

/-- The Booth shift halves the signed 9-bit value, rounding down (R81). -/
theorem sval_asr (a q : Nibble) (p : Bit) :
    sval (((asr a q p).1 ++ (asr a q p).2.1 ++ (asr a q p).2.2 : BitVec 9)) = (sval (a ++ q ++ p : BitVec 9)).fdiv 2 := by
  rw [sval_eq_toInt, sval_eq_toInt, Int.fdiv_eq_ediv_of_nonneg _ (by decide)]
  exact boothValue_asr a q p

/-- Settles O7: the negation and the modular operations are the library's, and the Booth shift halves the 9-bit value. -/
theorem lawsOfThePrimitives : Obligations.LawsOfThePrimitives := by
  refine ⟨?zero, fun _ => complement_intMin, ?mostNegative, ?subMostNegative, fun _ => complement_complement,
    fun _ => sub_add_cancel_right, fun _ => add_toNat_modEq, fun _ => sub_toNat_modEq, fun _ => sval_modEq_toNat, sval_asr⟩
  case zero => exact fun w => (complement_eq_neg _).trans (BitVec.neg_zero w)
  case mostNegative =>
    intro w hw
    rw [complement_intMin, sval_eq_toInt, BitVec.toInt_intMin_of_pos hw]
  case subMostNegative =>
    intro w a
    rw [sub, complement_intMin]

end Sys2Proof.Machine
